-- ==== Sys2Proof/Word.lean ====
section
/-!
DEFINITION. The plain types the model is written over: bytes, 32-bit words, the cipher's bit vectors, the action tag and
the names of the three byte buffers.
-/

namespace Sys2Proof

/-- A byte, 0 .. 255 (00_scope.md R11). -/
abbrev Byte := BitVec 8

/-- A register of the REG space or a command word: an unsigned integer of 32 bits, bit `[0]` least significant (R11). -/
abbrev Word := BitVec 32

/-- A bit vector of cipher data: the finite sequence `V{0}, V{1}, ...` of its bits, index 0 first and most significant;
its width is its length (00_scope.md R10). -/
abbrev Bits := List Bool

/-- The action tag, "a closed tagged enum {Encrypt, Decrypt}": exactly two constructors (30_encoding.md R71). -/
inductive Action where
  | encrypt
  | decrypt
deriving DecidableEq, Repr

/-- The three byte buffers (20_memory.md R50). -/
inductive Space where
  | keymem
  | inmem
  | outmem
deriving DecidableEq, Repr

end Sys2Proof
end

