-- ==== Sys2Proof/Config.lean ====
section
/-!
DEFINITION. What one built FCC fixes (the configuration `CFG`), the constants common to all of them, the spec's
configuration T32, and the free values: what the spec leaves unspecified, as constants with no body.
-/

namespace Sys2Proof

namespace Config

/-- `BLOCK_BYTES` (00_scope.md R6). -/
@[simp] abbrev blockBytes : Nat := 8

/-- `BLOCK_BITS` (00_scope.md R6). -/
@[simp] abbrev blockBits : Nat := 64

/-- `HALF_BITS` (00_scope.md R6). -/
@[simp] abbrev halfBits : Nat := 32

/-- `NGROUPS` (00_scope.md R6). -/
@[simp] abbrev nGroups : Nat := 8

/-- `SOUT` (00_scope.md R6, D7). -/
@[simp] abbrev sOut : Nat := 4

/-- `LEN_BITS` (00_scope.md R6). -/
@[simp] abbrev lenBits : Nat := 32

end Config

/-- The configuration of one built FCC: the open scalars of 00_scope.md R6 and the tables of R7. `ipfp` is `HAS_IPFP`
together with the tables `IP` and `FP`, which exist or are absent as a pair (D21). -/
structure Cfg where
  /-- `ROUNDS`; 32 for this hardware, a symbol in every rule. -/
  rounds : Nat
  /-- `G`, bits per S-box input group. -/
  g : Nat
  /-- `KEY_BYTES`, the mandated key length. -/
  keyBytes : Nat
  /-- `CD_BITS`, width of the key-schedule state. -/
  cdBits : Nat
  /-- `KEY_CAP`, bytes of KEYMEM. -/
  keyCap : Nat
  /-- `MSG_CAP`, bytes of INMEM. -/
  msgCap : Nat
  /-- `IP` and `FP`, if `HAS_IPFP`. -/
  ipfp : Option (List Nat × List Nat)
  /-- `E`, the expansion permutation. -/
  e : List Nat
  /-- `P`, the final fixed permutation of a round. -/
  p : List Nat
  /-- `SBOX[g][row][column]`. -/
  sbox : List (List (List Nat))
  /-- `PC1`, the initial compression permutation. -/
  pc1 : List Nat
  /-- `PC2`, the second compression permutation. -/
  pc2 : List Nat
  /-- `SHIFT`, the per-round shift amounts. -/
  shift : List Nat
deriving DecidableEq, Repr

/-- `RK_BITS = NGROUPS * G`, the width of a round key (00_scope.md R6, W2). -/
def Cfg.rkBits (c : Cfg) : Nat := Config.nGroups * c.g

/-- `KEY_BITS = 8 * KEY_BYTES` (00_scope.md R6, W6). -/
def Cfg.keyBits (c : Cfg) : Nat := 8 * c.keyBytes

/-- The width `CD_BITS/2` of the working registers `C` and `D` (10_state.md R21). -/
def Cfg.halfCd (c : Cfg) : Nat := c.cdBits / 2

namespace Config

/-! ### Free values

Constants with no body: no proof can see a value of them. Each is applied to the draw (a value of the counter
`State.draws`) at which the unspecified value came to be. -/

/-- The working registers whose value between commands is unspecified (10_state.md R21, R22; U3). -/
inductive WorkReg where
  | l
  | r
  | c
  | d
  | rc
  | bi
deriving DecidableEq, Repr

/-- What the unspecified byte at an offset of a buffer holds, for the draw that made it unspecified (10_state.md R32,
20_memory.md R54; U1, U2; log 6, log 8). -/
opaque freeByte : Space → Nat → Nat → Byte

/-- Bit `i` of a working register left unspecified at a draw (10_state.md R21; log 12). -/
opaque freeBit : WorkReg → Nat → Nat → Bool

/-- A sequencing counter left unspecified at a draw, before its bound is applied (10_state.md R22; log 12). -/
opaque freeCount : WorkReg → Nat → Nat

/-- What a read of a register other than STATUS returns while `BUSY = 1` (70_reset_and_hazards.md R221; log 13). -/
opaque freeRegReply : Nat → Word

/-- What a read of a buffer byte returns while `BUSY = 1` (70_reset_and_hazards.md R221; log 13). -/
opaque freeByteReply : Nat → Byte

/-! ### The configuration T32 (95_test_vectors.md section 2.2)

The spec's own configuration "of the shape the source gives the FCC"; `State.reset` is stated over it (log 2). Its tables
are listed in section 2.1 of that file. -/

/-- `IP` of 95_test_vectors.md section 2.1 (initial permutation), 0-indexed. -/
def desIP : List Nat :=
   [57, 49, 41, 33, 25, 17, 9, 1, 59, 51, 43, 35, 27, 19, 11, 3] ++
   [61, 53, 45, 37, 29, 21, 13, 5, 63, 55, 47, 39, 31, 23, 15, 7] ++
   [56, 48, 40, 32, 24, 16, 8, 0, 58, 50, 42, 34, 26, 18, 10, 2] ++
   [60, 52, 44, 36, 28, 20, 12, 4, 62, 54, 46, 38, 30, 22, 14, 6]

/-- `FP` of 95_test_vectors.md section 2.1 (final permutation, the inverse of `IP`), 0-indexed. -/
def desFP : List Nat :=
   [39, 7, 47, 15, 55, 23, 63, 31, 38, 6, 46, 14, 54, 22, 62, 30] ++
   [37, 5, 45, 13, 53, 21, 61, 29, 36, 4, 44, 12, 52, 20, 60, 28] ++
   [35, 3, 43, 11, 51, 19, 59, 27, 34, 2, 42, 10, 50, 18, 58, 26] ++
   [33, 1, 41, 9, 49, 17, 57, 25, 32, 0, 40, 8, 48, 16, 56, 24]

/-- `E` of 95_test_vectors.md section 2.1 (expansion), 0-indexed. -/
def desE : List Nat :=
   [31, 0, 1, 2, 3, 4, 3, 4, 5, 6, 7, 8, 7, 8, 9, 10] ++
   [11, 12, 11, 12, 13, 14, 15, 16, 15, 16, 17, 18, 19, 20, 19, 20] ++
   [21, 22, 23, 24, 23, 24, 25, 26, 27, 28, 27, 28, 29, 30, 31, 0]

/-- `P` of 95_test_vectors.md section 2.1 (round permutation), 0-indexed. -/
def desP : List Nat :=
   [15, 6, 19, 20, 28, 11, 27, 16, 0, 14, 22, 25, 4, 17, 30, 9] ++
   [1, 7, 23, 13, 31, 26, 2, 8, 18, 12, 29, 5, 21, 10, 3, 24]

/-- `PC1` of 95_test_vectors.md section 2.1 (first key compression), 0-indexed. -/
def desPC1 : List Nat :=
   [56, 48, 40, 32, 24, 16, 8, 0, 57, 49, 41, 33, 25, 17, 9, 1] ++
   [58, 50, 42, 34, 26, 18, 10, 2, 59, 51, 43, 35, 62, 54, 46, 38] ++
   [30, 22, 14, 6, 61, 53, 45, 37, 29, 21, 13, 5, 60, 52, 44, 36] ++
   [28, 20, 12, 4, 27, 19, 11, 3]

/-- `PC2` of 95_test_vectors.md section 2.1 (second key compression), 0-indexed. -/
def desPC2 : List Nat :=
   [13, 16, 10, 23, 0, 4, 2, 27, 14, 5, 20, 9, 22, 18, 11, 3] ++
   [25, 7, 15, 6, 26, 19, 12, 1, 40, 51, 30, 36, 46, 54, 29, 39] ++
   [50, 44, 32, 47, 43, 48, 38, 55, 33, 52, 45, 41, 49, 35, 28, 31]

/-- `SHIFT` of 95_test_vectors.md section 2.1 (shift amounts of 16 rounds), 0-indexed. -/
def desSHIFT : List Nat :=
   [1, 1, 2, 2, 2, 2, 2, 2, 1, 2, 2, 2, 2, 2, 2, 1]

/-- `SBOX[0]` of 95_test_vectors.md section 2.1. -/
def desSbox0 : List (List Nat) :=
  [[14, 4, 13, 1, 2, 15, 11, 8, 3, 10, 6, 12, 5, 9, 0, 7],
   [0, 15, 7, 4, 14, 2, 13, 1, 10, 6, 12, 11, 9, 5, 3, 8],
   [4, 1, 14, 8, 13, 6, 2, 11, 15, 12, 9, 7, 3, 10, 5, 0],
   [15, 12, 8, 2, 4, 9, 1, 7, 5, 11, 3, 14, 10, 0, 6, 13]]

/-- `SBOX[1]` of 95_test_vectors.md section 2.1. -/
def desSbox1 : List (List Nat) :=
  [[15, 1, 8, 14, 6, 11, 3, 4, 9, 7, 2, 13, 12, 0, 5, 10],
   [3, 13, 4, 7, 15, 2, 8, 14, 12, 0, 1, 10, 6, 9, 11, 5],
   [0, 14, 7, 11, 10, 4, 13, 1, 5, 8, 12, 6, 9, 3, 2, 15],
   [13, 8, 10, 1, 3, 15, 4, 2, 11, 6, 7, 12, 0, 5, 14, 9]]

/-- `SBOX[2]` of 95_test_vectors.md section 2.1. -/
def desSbox2 : List (List Nat) :=
  [[10, 0, 9, 14, 6, 3, 15, 5, 1, 13, 12, 7, 11, 4, 2, 8],
   [13, 7, 0, 9, 3, 4, 6, 10, 2, 8, 5, 14, 12, 11, 15, 1],
   [13, 6, 4, 9, 8, 15, 3, 0, 11, 1, 2, 12, 5, 10, 14, 7],
   [1, 10, 13, 0, 6, 9, 8, 7, 4, 15, 14, 3, 11, 5, 2, 12]]

/-- `SBOX[3]` of 95_test_vectors.md section 2.1. -/
def desSbox3 : List (List Nat) :=
  [[7, 13, 14, 3, 0, 6, 9, 10, 1, 2, 8, 5, 11, 12, 4, 15],
   [13, 8, 11, 5, 6, 15, 0, 3, 4, 7, 2, 12, 1, 10, 14, 9],
   [10, 6, 9, 0, 12, 11, 7, 13, 15, 1, 3, 14, 5, 2, 8, 4],
   [3, 15, 0, 6, 10, 1, 13, 8, 9, 4, 5, 11, 12, 7, 2, 14]]

/-- `SBOX[4]` of 95_test_vectors.md section 2.1. -/
def desSbox4 : List (List Nat) :=
  [[2, 12, 4, 1, 7, 10, 11, 6, 8, 5, 3, 15, 13, 0, 14, 9],
   [14, 11, 2, 12, 4, 7, 13, 1, 5, 0, 15, 10, 3, 9, 8, 6],
   [4, 2, 1, 11, 10, 13, 7, 8, 15, 9, 12, 5, 6, 3, 0, 14],
   [11, 8, 12, 7, 1, 14, 2, 13, 6, 15, 0, 9, 10, 4, 5, 3]]

/-- `SBOX[5]` of 95_test_vectors.md section 2.1. -/
def desSbox5 : List (List Nat) :=
  [[12, 1, 10, 15, 9, 2, 6, 8, 0, 13, 3, 4, 14, 7, 5, 11],
   [10, 15, 4, 2, 7, 12, 9, 5, 6, 1, 13, 14, 0, 11, 3, 8],
   [9, 14, 15, 5, 2, 8, 12, 3, 7, 0, 4, 10, 1, 13, 11, 6],
   [4, 3, 2, 12, 9, 5, 15, 10, 11, 14, 1, 7, 6, 0, 8, 13]]

/-- `SBOX[6]` of 95_test_vectors.md section 2.1. -/
def desSbox6 : List (List Nat) :=
  [[4, 11, 2, 14, 15, 0, 8, 13, 3, 12, 9, 7, 5, 10, 6, 1],
   [13, 0, 11, 7, 4, 9, 1, 10, 14, 3, 5, 12, 2, 15, 8, 6],
   [1, 4, 11, 13, 12, 3, 7, 14, 10, 15, 6, 8, 0, 5, 9, 2],
   [6, 11, 13, 8, 1, 4, 10, 7, 9, 5, 0, 15, 14, 2, 3, 12]]

/-- `SBOX[7]` of 95_test_vectors.md section 2.1. -/
def desSbox7 : List (List Nat) :=
  [[13, 2, 8, 4, 6, 15, 11, 1, 10, 9, 3, 14, 5, 0, 12, 7],
   [1, 15, 13, 8, 10, 3, 7, 4, 12, 5, 6, 11, 0, 14, 9, 2],
   [7, 11, 4, 1, 9, 12, 14, 2, 0, 6, 10, 13, 15, 3, 5, 8],
   [2, 1, 14, 7, 4, 10, 8, 13, 15, 12, 9, 0, 3, 5, 6, 11]]

/-- The eight S-box tables of 95_test_vectors.md section 2.1. -/
def desSbox : List (List (List Nat)) :=
  [desSbox0, desSbox1, desSbox2, desSbox3, desSbox4, desSbox5, desSbox6, desSbox7]

/-- T32: 32 rounds, `G = 6`, an 8-byte key, `CD_BITS = 56`, `IP` and `FP` present, `KEY_CAP = MSG_CAP = 64`
(95_test_vectors.md sections 2 and 2.2). -/
def t32 : Cfg where
  rounds := 32
  g := 6
  keyBytes := 8
  cdBits := 56
  keyCap := 64
  msgCap := 64
  ipfp := some (desIP, desFP)
  e := desE
  p := desP
  sbox := desSbox
  pc1 := desPC1
  pc2 := desPC2
  shift := desSHIFT ++ desSHIFT

end Config

end Sys2Proof
end

