-- ==== Sys2Proof/Syntax.lean ====
section
/-!
DEFINITION. The instruction set: the eight commands of the opcode table (30_encoding.md R72). A command word carries no
operand.
-/

namespace Sys2Proof

/-- The eight commands, one constructor per row of the opcode table. -/
inductive Instr where
  /-- No operation (45_control_and_host.md R175). -/
  | nop
  /-- Soft reset (45_control_and_host.md R176). -/
  | rst
  /-- Load a key: construct a cipher instance (41_key_schedule.md R113). -/
  | kload
  /-- Clear the key: drop the cipher instance (41_key_schedule.md R114). -/
  | kclr
  /-- Encrypt one Block (43_block_iterator.md R144). -/
  | encb
  /-- Decrypt one Block (43_block_iterator.md R145). -/
  | decb
  /-- Encrypt a message (44_message_codec.md R160). -/
  | encm
  /-- Decrypt a message (44_message_codec.md R164). -/
  | decm
deriving DecidableEq, Repr

end Sys2Proof
end

