-- ==== Sys2Proof/WellFormed.lean ====
section
/-!
DEFINITION. Well-formedness. A command word carries no operand, so every instruction is well-formed; what can be ill-formed
is the configuration, and `Cfg.WF` is the predicate `WF(CFG)` of 00_scope.md R8, clause by clause. W1 (`BLOCK_BITS = 64`,
`BLOCK_BYTES = 8`, `HALF_BITS = 32`, `NGROUPS = 8`, `SOUT = 4`) holds by the constants of Config; its clause
`ROUNDS >= 1` is `Cfg.W1`.
-/

namespace Sys2Proof

/-- Every instruction is well-formed: "A command word carries no operand" (30_encoding.md R72). -/
abbrev Instr.WellFormed (_ : Instr) : Prop := True

/-- W1: at least one round. -/
abbrev Cfg.W1 (c : Cfg) : Prop := 1 ≤ c.rounds

/-- W2: `G >= 2` (and `RK_BITS = NGROUPS * G`, by definition). -/
abbrev Cfg.W2 (c : Cfg) : Prop := 2 ≤ c.g

/-- W3: the shape of `E`. -/
abbrev Cfg.W3 (c : Cfg) : Prop := c.e.length = c.rkBits ∧ ∀ x ∈ c.e, x < Config.halfBits

/-- W4: the shape of `P`. -/
abbrev Cfg.W4 (c : Cfg) : Prop :=
  c.p.length = Config.halfBits ∧ (∀ x ∈ c.p, x < Config.nGroups * Config.sOut) ∧
    Config.nGroups * Config.sOut = Config.halfBits

/-- W5: the shape of the S-box tables. -/
abbrev Cfg.W5 (c : Cfg) : Prop :=
  c.sbox.length = Config.nGroups ∧ ∀ table ∈ c.sbox, table.length = 4 ∧
    ∀ row ∈ table, row.length = 2 ^ (c.g - 2) ∧ ∀ x ∈ row, x < 2 ^ Config.sOut

/-- W6: key length, `CD_BITS` and the shape of `PC1`. -/
abbrev Cfg.W6 (c : Cfg) : Prop :=
  1 ≤ c.keyBytes ∧ 2 ≤ c.cdBits ∧ c.cdBits % 2 = 0 ∧ c.pc1.length = c.cdBits ∧ ∀ x ∈ c.pc1, x < c.keyBits

/-- W7: the shape of `PC2`. -/
abbrev Cfg.W7 (c : Cfg) : Prop := c.pc2.length = c.rkBits ∧ ∀ x ∈ c.pc2, x < c.cdBits

/-- W8: the shape of `SHIFT`. -/
abbrev Cfg.W8 (c : Cfg) : Prop := c.shift.length = c.rounds ∧ ∀ x ∈ c.shift, x ≤ 255

/-- W9 for one pair of tables: 64 entries each, all below 64, `IP` without a repeated entry, `FP` its inverse. -/
abbrev inversePair (ip fp : List Nat) : Prop :=
  ip.length = 64 ∧ fp.length = 64 ∧ (∀ x ∈ ip, x < 64) ∧ (∀ x ∈ fp, x < 64) ∧ ip.Nodup ∧
    ∀ i < 64, ip[fp.getD i 64]? = some i ∧ fp[ip.getD i 64]? = some i

/-- W9: the optional permutations, if they exist. -/
abbrev Cfg.W9 (c : Cfg) : Prop := ∀ t ∈ c.ipfp, inversePair t.1 t.2

/-- W10: the capacities. -/
abbrev Cfg.W10 (c : Cfg) : Prop :=
  c.keyBytes ≤ c.keyCap ∧ 8 ≤ c.msgCap ∧ c.msgCap % 8 = 0 ∧ c.msgCap + 8 < 2 ^ Config.lenBits ∧
    c.keyCap < 2 ^ Config.lenBits

/-- `WF(CFG)`, the conjunction W1 to W10: a configuration that fails it is not a buildable FCC (00_scope.md R8). -/
abbrev Cfg.WF (c : Cfg) : Prop :=
  c.W1 ∧ c.W2 ∧ c.W3 ∧ c.W4 ∧ c.W5 ∧ c.W6 ∧ c.W7 ∧ c.W8 ∧ c.W9 ∧ c.W10

/-- The values this hardware may take inside `WF(CFG)` (00_scope.md R6): 32 rounds, `G` 6 or 4, a key of 8 or 32 bytes. -/
abbrev Cfg.InRange (c : Cfg) : Prop :=
  c.rounds = 32 ∧ (c.g = 6 ∨ c.g = 4) ∧ (c.keyBytes = 8 ∨ c.keyBytes = 32)

end Sys2Proof
end

