-- ==== Sys2Proof/Decode.lean ====
section
/-!
DEFINITION. The decoder and the encoder of command words (30_encoding.md R70, R72, R75): one 32-bit word, fields
`ZERO[31:3]`, `UNIT[2:1]`, `ACT[0]`.
-/

namespace Sys2Proof

/-- Why a command word is no command. -/
inductive DecodeError where
  /-- A word `W >= 8`: some bit of `ZERO` is set, a reserved encoding (30_encoding.md R75). -/
  | reservedWord (w : Word)
deriving DecidableEq, Repr

/-- `ZERO = W[31:3]`. -/
def fieldZero (w : Word) : BitVec 29 := w.extractLsb' 3 29

/-- `UNIT = W[2:1]`: 0 control, 1 key schedule, 2 block iterator, 3 message codec. -/
def fieldUnit (w : Word) : BitVec 2 := w.extractLsb' 1 2

/-- `ACT = W[0]`: the action tag of units 2 and 3, the sub-operation of units 0 and 1. -/
def fieldAct (w : Word) : BitVec 1 := w.extractLsb' 0 1

/-- The command of a `UNIT` and an `ACT` (30_encoding.md R70, R72): all eight pairs are commands. -/
def commandOf (unit : BitVec 2) (act : BitVec 1) : Instr :=
  match unit.toNat, act.toNat with
  | 0, 0 => .nop
  | 0, _ => .rst
  | 1, 0 => .kload
  | 1, _ => .kclr
  | 2, 0 => .encb
  | 2, _ => .decb
  | _, 0 => .encm
  | _, _ => .decm

/-- The command a word encodes; a word with a bit of `ZERO` set is reserved (30_encoding.md R74, R75). -/
def decode (w : Word) : Except DecodeError Instr :=
  if fieldZero w = 0#29 then .ok (commandOf (fieldUnit w) (fieldAct w)) else .error (.reservedWord w)

/-- The `UNIT` of a command (30_encoding.md R70). -/
def unitOf : Instr → BitVec 2
  | .nop | .rst => 0#2
  | .kload | .kclr => 1#2
  | .encb | .decb => 2#2
  | .encm | .decm => 3#2

/-- The `ACT` of a command (30_encoding.md R70; `Encrypt = 0`, `Decrypt = 1`, R71). -/
def actOf : Instr → BitVec 1
  | .nop | .kload | .encb | .encm => 0#1
  | .rst | .kclr | .decb | .decm => 1#1

/-- The command word of a command: `ZERO`, `UNIT`, `ACT` laid out from the most significant bit (30_encoding.md R70). -/
def encode (i : Instr) : Word := 0#29 ++ unitOf i ++ actOf i

/-- What the decoder reads from an instruction numbered as the opcode table numbers it. A command word is one 32-bit
integer and the table's bit 0 is its bit `[0]`, so the two numberings agree (30_encoding.md R70; log 17). -/
def decodeTableWord (nbits w : Nat) : Option Instr :=
  if w % 2 ^ nbits < 2 ^ 32 then (decode (BitVec.ofNat 32 (w % 2 ^ nbits))).toOption else none

end Sys2Proof
end

