-- ==== Sys2Proof/Machine/State.lean ====
section
/-!
DEFINITION. The state of the FCC as plain data (10_state.md R20), the host actions and replies (45_control_and_host.md),
the fault codes, the reasons a step could stop, and the state after reset (10_state.md R33).
-/

namespace Sys2Proof.Machine

/-- A byte buffer: the cells that hold a specified byte, at strictly rising offsets. An unlisted offset holds no specified
byte: being listed IS the "written" mark of 93_implementation_defined.md U1 (log 7). -/
abbrev Memory := List Host.Cell

/-- The faults of the FCC (60_exceptions.md R190). Raising one is a next state of the machine (R193), not a stop. -/
inductive FaultCode where
  | invalidKey
  | invalidWidth
  | invalidBlockLength
  | invalidAction
  | indexOutOfRange
  | noKey
  | capacity
deriving DecidableEq, Repr

/-- The five host actions (45_control_and_host.md R177 to R181). -/
inductive HostAction where
  /-- `HostWriteReg(n, v)` (R177). -/
  | writeReg (n : Nat) (v : Word)
  /-- `HostReadReg(n)` (R178). -/
  | readReg (n : Nat)
  /-- `HostWriteMem(S, a, b)` (R179). -/
  | writeMem (space : Space) (a : Nat) (b : Byte)
  /-- `HostReadMem(S, a)` (R180). -/
  | readMem (space : Space) (a : Nat)
  /-- `HostReset` (R181). -/
  | reset
deriving DecidableEq, Repr

/-- The reply to a read: "a 32-bit value for a register read, a byte for a buffer read, and nothing for the others"
(45_control_and_host.md section 2). -/
inductive Reply where
  | reg (v : Word)
  | byte (b : Byte)
deriving DecidableEq, Repr

/-- What stops the machine: nothing. Every fault the spec names is latched in STATUS and the machine goes on
(60_exceptions.md R193), and every host action is defined in every state (D2: "the model's step function is total"). The
type is empty, so that an outcome `.fault` cannot be written. Safe: no behaviour of the FCC is cut off. -/
inductive Fault where
deriving DecidableEq, Repr

/-- The reasons the model gives no meaning. -/
inductive Refusal where
  /-- Raised by `exec` alone, for an instruction that has no meaning yet. Safe: nothing is claimed of it. No arm of `exec`
  raises it: every instruction has its meaning. -/
  | notModelled (mnemonic : String)
deriving DecidableEq, Repr

/-- The state of the FCC (10_state.md R20), its configuration, and the model's own fields (at the end). -/
structure State where
  /-- The configuration `CFG`, constant (00_scope.md R2, R6, R7; log 1). -/
  cfg : Cfg
  /-- `L`, left half of the Block in flight (R21). -/
  l : Bits
  /-- `R`, right half of the Block in flight (R21). -/
  r : Bits
  /-- `C`, leading half of the key-schedule state (R21). -/
  c : Bits
  /-- `D`, trailing half of the key-schedule state (R21). -/
  d : Bits
  /-- `RC`, the round counter (R22). -/
  rc : Nat
  /-- `BI`, the block index (R22). -/
  bi : Nat
  /-- `KEY`, the key latch (R27). -/
  key : Bits
  /-- `RK[0 .. ROUNDS-1]`, the round-key file (R28). -/
  rk : List Bits
  /-- Flag `KEY_VALID` (R23). -/
  keyValid : Bool
  /-- Flag `HALT` (R23). -/
  halt : Bool
  /-- Flag `BADPAD` (R23). -/
  badpad : Bool
  /-- Flag `BUSY` (R23). -/
  busy : Bool
  /-- `ERR`, code of the last performed command's fault (R25). -/
  err : BitVec 4
  /-- `ESTICKY`, one bit per fault code raised (R25). -/
  esticky : BitVec 8
  /-- `KLEN` (R26). -/
  klen : Word
  /-- `MLEN` (R26). -/
  mlen : Word
  /-- `OLEN` (R26). -/
  olen : Word
  /-- `KEYMEM` (20_memory.md R50). -/
  keymem : Memory
  /-- `INMEM` (20_memory.md R50). -/
  inmem : Memory
  /-- `OUTMEM` (20_memory.md R50). -/
  outmem : Memory
  /-- The model's own: the host actions still to come, the next one first (log 3). -/
  host : List HostAction
  /-- The model's own: the replies of the reads performed, the latest first (log 5). -/
  replies : List Reply
  /-- The model's own: the next draw of free values (log 9). -/
  draws : Nat
  /-- The model's own: the draw that made the unlisted bytes of KEYMEM and INMEM unspecified (log 9). -/
  bufEpoch : Nat
  /-- The model's own: the draw that made the unlisted bytes of OUTMEM unspecified (log 9). -/
  outEpoch : Nat
deriving DecidableEq, Repr

/-- A bit vector of zeros. -/
def zeros (n : Nat) : Bits := List.replicate n false

/-- The state of an FCC of configuration `c` right after a power-on reset (10_state.md R33, 70_reset_and_hazards.md R215).
`KEY`, `RK` and the working registers, for which the spec gives no value there, are zero (log 10, log 11). -/
def State.resetWith (c : Cfg) : State where
  cfg := c
  l := zeros Config.halfBits
  r := zeros Config.halfBits
  c := zeros c.halfCd
  d := zeros c.halfCd
  rc := 0
  bi := 0
  key := zeros c.keyBits
  rk := List.replicate c.rounds (zeros c.rkBits)
  keyValid := false
  halt := false
  badpad := false
  busy := false
  err := 0#4
  esticky := 0#8
  klen := 0#32
  mlen := 0#32
  olen := 0#32
  keymem := []
  inmem := []
  outmem := []
  host := []
  replies := []
  draws := 1
  bufEpoch := 0
  outEpoch := 0

/-- The machine right after reset, over the spec's configuration T32 (log 2). -/
def State.reset : State := State.resetWith Config.t32

end Sys2Proof.Machine
end

