-- ==== Sys2Proof/Machine/Flags.lean ====
section
/-!
DEFINITION. The fault codes, their classes, and the two registers composed of fields: STATUS and CFG0 (10_state.md R25,
R29; 60_exceptions.md R190, R194).
-/

namespace Sys2Proof.Machine

/-- The code of a fault (60_exceptions.md R190). -/
def FaultCode.code : FaultCode → Nat
  | .invalidKey => 1
  | .invalidWidth => 2
  | .invalidBlockLength => 3
  | .invalidAction => 4
  | .indexOutOfRange => 5
  | .noKey => 6
  | .capacity => 7

/-- The class of a fault: `true` for panic, `false` for reported (60_exceptions.md R190, R194). -/
def FaultCode.isPanic : FaultCode → Bool
  | .invalidWidth | .invalidAction | .indexOutOfRange => true
  | .invalidKey | .invalidBlockLength | .noKey | .capacity => false

/-- What `ERR` holds after the fault (60_exceptions.md R193). -/
def FaultCode.errValue (f : FaultCode) : BitVec 4 := BitVec.ofNat 4 f.code

/-- The bit of `ESTICKY` of the fault: bit `code` (10_state.md R25). -/
def FaultCode.stickyBit (f : FaultCode) : BitVec 8 := BitVec.ofNat 8 (2 ^ f.code)

/-- `STATUS`: from bit 31 down, 16 zeros, `ESTICKY`, `ERR`, `BADPAD`, `HALT`, `KEY_VALID`, `BUSY` (10_state.md R25). -/
def State.statusWord (s : State) : Word :=
  0#16 ++ s.esticky ++ s.err ++ BitVec.ofBool s.badpad ++ BitVec.ofBool s.halt ++ BitVec.ofBool s.keyValid ++
    BitVec.ofBool s.busy

/-- `CFG0`: from bit 31 down, 8 zeros, `KEY_BYTES`, 3 zeros, `HAS_IPFP`, `G`, `ROUNDS` (10_state.md R29; a value too wide
for its field keeps its low bits, log 16). -/
def cfg0Word (c : Cfg) : Word :=
  0#8 ++ BitVec.ofNat 8 c.keyBytes ++ 0#3 ++ BitVec.ofBool c.ipfp.isSome ++ BitVec.ofNat 4 c.g ++
    BitVec.ofNat 8 c.rounds

end Sys2Proof.Machine
end

