-- ==== Sys2Proof/Machine/Ops.lean ====
section
/-!
DEFINITION. The named operations over the buffers and the registers, written once for every command: reading and writing
buffer bytes (20_memory.md), leaving a value unspecified, delivering a fault (60_exceptions.md R193), completing a command
and resetting (10_state.md R33).
-/

namespace Sys2Proof.Machine

/-- What a command or a host action answers. -/
abbrev Result := Host.Outcome State Fault Refusal

/-- Apply `f` to the next state of an outcome. -/
def mapNext (f : State → State) : Result → Result
  | .next s => .next (f s)
  | .fault e => .fault e
  | .refused e => .refused e

/-- The next state of an outcome, if it has one. -/
def nextState? : Result → Option State
  | .next s => some s
  | .fault _ => none
  | .refused _ => none

/-! ### Buffers -/

/-- The specified byte at an offset, if there is one. -/
def Memory.get? : Memory → Nat → Option Byte
  | [], _ => none
  | (k, b) :: m, a => if k = a then some b else Memory.get? m a

/-- Store one byte, keeping the offsets strictly rising. -/
def Memory.set : Memory → Nat → Byte → Memory
  | [], a, b => [(a, b)]
  | (k, x) :: m, a, b =>
    if a < k then (a, b) :: (k, x) :: m
    else if a = k then (a, b) :: m
    else (k, x) :: Memory.set m a b

/-- Store bytes at consecutive offsets, the first of them at `a` (20_memory.md R53). -/
def Memory.storeBytes : Memory → Nat → List Byte → Memory
  | m, _, [] => m
  | m, a, b :: bs => Memory.storeBytes (Memory.set m a b) (a + 1) bs

/-- Leave unspecified every byte at offset `n` or above (20_memory.md R54). -/
def Memory.keepBelow (m : Memory) (n : Nat) : Memory := m.filter fun cell => decide (cell.1 < n)

/-- The canonical form: offsets strictly rising. (An unlisted offset has no byte, so no entry can equal what an unlisted
offset reads as.) -/
def Memory.wf : Memory → Bool
  | [] => true
  | [_] => true
  | (k, _) :: (k', b') :: m => decide (k < k') && Memory.wf ((k', b') :: m)

/-- Every listed offset is below `n`. -/
def Memory.below (m : Memory) (n : Nat) : Bool := m.all fun cell => decide (cell.1 < n)

/-- The number of bytes of a buffer (20_memory.md R50). -/
def bufferSize (c : Cfg) : Space → Nat
  | .keymem => c.keyCap
  | .inmem => c.msgCap
  | .outmem => c.msgCap + 8

/-- The cells of a buffer. -/
def State.mem (s : State) : Space → Memory
  | .keymem => s.keymem
  | .inmem => s.inmem
  | .outmem => s.outmem

/-- The draw that made the unlisted bytes of a buffer unspecified (log 9). -/
def State.epoch (s : State) : Space → Nat
  | .keymem | .inmem => s.bufEpoch
  | .outmem => s.outEpoch

/-- Whether a byte of a buffer is specified: the "written" mark of 93_implementation_defined.md U1. -/
def State.written (s : State) (sp : Space) (a : Nat) : Bool := (Memory.get? (s.mem sp) a).isSome

/-- What a byte of a buffer holds: the specified byte, or a free value (U1, U2; log 6). -/
def State.byteAt (s : State) (sp : Space) (a : Nat) : Byte :=
  (Memory.get? (s.mem sp) a).getD (Config.freeByte sp (s.epoch sp) a)

/-- `MemRead(S, a, n)` (20_memory.md R52). -/
def State.memRead (s : State) (sp : Space) (a n : Nat) : List Byte := (List.range n).map fun k => s.byteAt sp (a + k)

/-- Store one byte of a buffer. -/
def State.setByte (s : State) (sp : Space) (a : Nat) (b : Byte) : State :=
  match sp with
  | .keymem => { s with keymem := Memory.set s.keymem a b }
  | .inmem => { s with inmem := Memory.set s.inmem a b }
  | .outmem => { s with outmem := Memory.set s.outmem a b }

/-- A data command's output: `MemWrite(OUTMEM, 0, len(O), O)`, `OLEN <- len(O)`, and every byte of OUTMEM at or above `OLEN`
unspecified (20_memory.md R53, R54; log 8). -/
def State.storeOutput (s : State) (o : List Byte) : State :=
  { s with
    outmem := Memory.keepBelow (Memory.storeBytes s.outmem 0 o) o.length
    olen := BitVec.ofNat 32 o.length
    outEpoch := s.draws
    draws := s.draws + 1 }

/-! ### Unspecified working registers -/

/-- An unspecified bit vector of a given width. -/
def freeBits (reg : Config.WorkReg) (draw width : Nat) : Bits := (List.range width).map (Config.freeBit reg draw)

/-- An unspecified counter, at most `bound` (10_state.md R22 gives the bound). -/
def freeCounter (reg : Config.WorkReg) (draw bound : Nat) : Nat := Config.freeCount reg draw % (bound + 1)

/-- KLOAD leaves `C`, `D` and `RC` unspecified (10_state.md R21, R22; log 12). -/
def State.unspecifySchedule (s : State) : State :=
  { s with
    c := freeBits .c s.draws s.cfg.halfCd
    d := freeBits .d s.draws s.cfg.halfCd
    rc := freeCounter .rc s.draws s.cfg.rounds
    draws := s.draws + 1 }

/-- A Block command leaves `L`, `R` and `RC` unspecified (43_block_iterator.md R144; log 12). -/
def State.unspecifyBlock (s : State) : State :=
  { s with
    l := freeBits .l s.draws Config.halfBits
    r := freeBits .r s.draws Config.halfBits
    rc := freeCounter .rc s.draws s.cfg.rounds
    draws := s.draws + 1 }

/-- A message command leaves `L`, `R`, `RC` and `BI` unspecified (10_state.md R21, R22; log 12). -/
def State.unspecifyMessage (s : State) : State :=
  { s with
    l := freeBits .l s.draws Config.halfBits
    r := freeBits .r s.draws Config.halfBits
    rc := freeCounter .rc s.draws s.cfg.rounds
    bi := freeCounter .bi s.draws (s.cfg.msgCap / 8 + 1)
    draws := s.draws + 1 }

/-! ### The cipher instance -/

/-- Discard the cipher instance: `KEY_VALID <- 0`, `KEY` and every `RK[i]` all zeros (41_key_schedule.md R113, R114). -/
def State.discardInstance (s : State) : State :=
  { s with
    keyValid := false
    key := zeros s.cfg.keyBits
    rk := List.replicate s.cfg.rounds (zeros s.cfg.rkBits) }

/-- Construct the cipher instance (41_key_schedule.md R113). -/
def State.installInstance (s : State) (key : Bits) (rk : List Bits) : State :=
  { s with key := key, rk := rk, keyValid := true }

/-! ### The end of a command -/

/-- A performed command that succeeds ends by writing 0 to `ERR` (30_encoding.md R74). -/
def State.complete (s : State) : State := { s with err := 0#4 }

/-- `raise F`, the delivery of a fault (60_exceptions.md R193), from the state in which the command's writes are discarded:
`ERR` holds the code, its `ESTICKY` bit is set and the others keep their value, a panic sets `HALT`, `BUSY` is 0. There
is no handler, no saved context and no return from a fault (R196): `State.resetAll` is the way out of a panic. -/
def State.raise (s : State) (f : FaultCode) : State :=
  { s with
    err := f.errValue
    esticky := s.esticky ||| f.stickyBit
    halt := s.halt || f.isPanic
    busy := false }

/-- What RST and HostReset do alike: every piece of state takes its reset value (10_state.md R33, 45_control_and_host.md
R176, 70_reset_and_hazards.md R215, D19). The working registers and every buffer byte become unspecified, the host's
coming actions and the replies it has are not the FCC's and stay (log 10, log 12, log 19). -/
def State.resetAll (s : State) : State :=
  { State.resetWith s.cfg with
    l := freeBits .l s.draws Config.halfBits
    r := freeBits .r s.draws Config.halfBits
    c := freeBits .c s.draws s.cfg.halfCd
    d := freeBits .d s.draws s.cfg.halfCd
    rc := freeCounter .rc s.draws s.cfg.rounds
    bi := freeCounter .bi s.draws (s.cfg.msgCap / 8 + 1)
    host := s.host
    replies := s.replies
    draws := s.draws + 1
    bufEpoch := s.draws
    outEpoch := s.draws }

/-- The end of a command whose body either gives its state or fails: a failure `F` means the command does `raise F` from
`base` (00_scope.md R12, 60_exceptions.md R193). -/
def finish (base : State) : Except FaultCode State → Result
  | .ok t => .next t.complete
  | .error f => .next (base.raise f)

/-- The dispatcher's first test: with `HALT = 1` the word is ignored and nothing changes (30_encoding.md R74; log 14). -/
def unlessHalted (s : State) (perform : Result) : Result := if s.halt then .next s else perform

/-! ### BUSY and replies -/

/-- The write of CMD sets `BUSY` (10_state.md R23). -/
def State.beginCommand (s : State) : State := { s with busy := true }

/-- The end of the command clears `BUSY` (10_state.md R23). -/
def State.endCommand (s : State) : State := { s with busy := false }

/-- Give the host a reply. -/
def State.reply (s : State) (x : Reply) : State := { s with replies := x :: s.replies }

/-- Use up one draw of free values. -/
def State.advanceDraws (s : State) : State := { s with draws := s.draws + 1 }

end Sys2Proof.Machine
end

