-- ==== Sys2Proof/Machine/Control.lean ====
section
/-!
DEFINITION. The commands of unit 0, NOP and RST (45_control_and_host.md R175, R176), and the reserved command words
(30_encoding.md R75).
-/

namespace Sys2Proof.Machine

/-- NOP: no state changes, `ERR` included (45_control_and_host.md R175). Under `HALT` it is ignored, which is the same. -/
def execNop (s : State) : Host.Outcome State Fault Refusal := .next s

/-- RST: the one command performed when `HALT = 1` (45_control_and_host.md R176, 30_encoding.md R74). -/
def execRst (s : State) : Host.Outcome State Fault Refusal := .next s.resetAll

/-- A reserved command word raises `InvalidAction`, unless the FCC is halted (30_encoding.md R74, R75). -/
def reservedWord (s : State) : Result := unlessHalted s (finish s (.error .invalidAction))

end Sys2Proof.Machine
end

