-- ==== Sys2Proof/Machine/BitVector.lean ====
section
/-!
DEFINITION. The bit-vector utilities (40_bitvector.md): pure functions that either return their result or fail with exactly
one of `InvalidWidth` and `IndexOutOfRange`; they never pad, truncate or wrap (R90).
-/

namespace Sys2Proof.Machine

/-- `val(V)`: the unsigned value of a bit vector, first bit most significant (00_scope.md R10). -/
def valOf (v : Bits) : Nat := v.foldl (fun acc b => 2 * acc + b.toNat) 0

/-- `bv(x, n)`: the vector of width `n` whose value is `x mod 2^n` (00_scope.md R10). -/
def bitsOf (x n : Nat) : Bits := (List.range n).map fun i => x.testBit (n - 1 - i)

/-- `permute(V, T)`: output bit `i` is input bit `T[i]`, 0-indexed (40_bitvector.md R91). -/
def permute (v : Bits) : List Nat → Except FaultCode Bits
  | [] => .ok []
  | t :: ts =>
    match v[t]? with
    | none => .error .indexOutOfRange
    | some b => (permute v ts).map (b :: ·)

/-- The first `k` consecutive slices of width `w`. -/
def slices {α : Type} (w : Nat) : Nat → List α → List (List α)
  | 0, _ => []
  | k + 1, v => v.take w :: slices w k (v.drop w)

/-- `split(V, k)`: `k` equal contiguous slices in order (40_bitvector.md R93). -/
def split (v : Bits) (k : Nat) : Except FaultCode (List Bits) :=
  if k = 0 ∨ v.length % k ≠ 0 then .error .invalidWidth else .ok (slices (v.length / k) k v)

/-- `split(V, 2)` as a pair, the leading half first. -/
def halves (v : Bits) : Except FaultCode (Bits × Bits) := do
  let parts ← split v 2
  .ok (parts.getD 0 [], parts.getD 1 [])

/-- `merge`: concatenation of the slices in order (40_bitvector.md R94). -/
def merge (parts : List Bits) : Bits := parts.flatten

/-- `xor(A, B)`: bitwise, no carry (40_bitvector.md R95). -/
def xorBits (a b : Bits) : Except FaultCode Bits :=
  if a.length = b.length then .ok (List.zipWith Bool.xor a b) else .error .invalidWidth

/-- `xor_with_carry(A, B)`: unsigned addition modulo `2^n` and its carry out; no command uses it (40_bitvector.md R96). -/
def xorWithCarry (a b : Bits) : Except FaultCode (Bool × Bits) :=
  if a.length = b.length then
    .ok (decide (2 ^ a.length ≤ valOf a + valOf b), bitsOf (valOf a + valOf b) a.length)
  else .error .invalidWidth

/-- `cyclic_shift_left(V, n)`: the `n mod width` leading bits leave at the front and re-enter at the back
(40_bitvector.md R97). -/
def cyclicShiftLeft (v : Bits) (n : Nat) : Bits := v.drop (n % v.length) ++ v.take (n % v.length)

/-- The eight bits of a byte, the one of weight 128 first (40_bitvector.md R98). -/
def byteToBits (b : Byte) : Bits :=
  [b.getLsbD 7, b.getLsbD 6, b.getLsbD 5, b.getLsbD 4, b.getLsbD 3, b.getLsbD 2, b.getLsbD 1, b.getLsbD 0]

/-- `bytes_to_bits`: byte 0 first, MSB-first per byte (40_bitvector.md R98, 20_memory.md R55). -/
def bytesToBits (bytes : List Byte) : Bits := bytes.flatMap byteToBits

/-- `bits_to_bytes` (40_bitvector.md R99). -/
def bitsToBytes (v : Bits) : Except FaultCode (List Byte) :=
  if v.length % 8 = 0 then .ok ((slices 8 (v.length / 8) v).map fun x => BitVec.ofNat 8 (valOf x))
  else .error .invalidWidth

/-- An element of a list; an index beyond its end fails `IndexOutOfRange` (42_round_function.md R126; log 15). -/
def element {α : Type} (xs : List α) (i : Nat) : Except FaultCode α :=
  match xs[i]? with
  | none => .error .indexOutOfRange
  | some x => .ok x

end Sys2Proof.Machine
end

