-- ==== Sys2Proof/Machine/KeySchedule.lean ====
section
/-!
DEFINITION. The key-schedule generator (41_key_schedule.md): the functions `derive_bits` and `derive`.
-/

namespace Sys2Proof.Machine

/-- The rounds of the key schedule from round `r` on, `n` of them: shift both halves by `SHIFT[r]`, then take the subkey by
`PC2`; the halves are carried forward (41_key_schedule.md R111). -/
def scheduleRounds (cfg : Cfg) : Nat → Nat → Bits → Bits → Except FaultCode (List Bits)
  | _, 0, _, _ => .ok []
  | r, n + 1, c, d => do
    let amount ← element cfg.shift r
    let c := cyclicShiftLeft c amount
    let d := cyclicShiftLeft d amount
    let subkey ← permute (merge [c, d]) cfg.pc2
    let rest ← scheduleRounds cfg (r + 1) n c d
    .ok (subkey :: rest)

/-- `derive_bits(K)`: the `ROUNDS` round keys of a key of `KEY_BITS` bits (41_key_schedule.md R111). -/
def deriveBits (cfg : Cfg) (key : Bits) : Except FaultCode (List Bits) := do
  let cd ← permute key cfg.pc1
  let (c, d) ← halves cd
  scheduleRounds cfg 0 cfg.rounds c d

/-- `derive(key)`: a key shorter than `KEY_BYTES` fails `InvalidKey`, of a longer one the first `KEY_BYTES` bytes are used
(41_key_schedule.md R110, R111, R115). -/
def derive (cfg : Cfg) (key : List Byte) : Except FaultCode (List Bits) :=
  if key.length < cfg.keyBytes then .error .invalidKey else deriveBits cfg (bytesToBits (key.take cfg.keyBytes))

end Sys2Proof.Machine
end

