-- ==== Sys2Proof/Machine/Operands.lean ====
section
/-!
DEFINITION. The operands of the commands: a command word carries none, every operand is state the host set beforehand
(30_encoding.md R72), and each command checks its operands in a fixed order before it writes anything
(60_exceptions.md R191, R195).
-/

namespace Sys2Proof.Machine

/-- A check of a command: pass, or fail with the fault. -/
def require (p : Prop) [Decidable p] (f : FaultCode) : Except FaultCode Unit := if p then .ok () else .error f

/-- KLOAD's operand: `Capacity` when `KLEN > KEY_CAP`, else `InvalidKey` when `KLEN < KEY_BYTES`, else the bytes
`KEYMEM[0 .. KEY_BYTES-1]` (41_key_schedule.md R113). -/
def keyOperand (s : State) : Except FaultCode (List Byte) := do
  require (s.klen.toNat ≤ s.cfg.keyCap) .capacity
  require (s.cfg.keyBytes ≤ s.klen.toNat) .invalidKey
  .ok (s.memRead .keymem 0 s.cfg.keyBytes)

/-- The operand of ENCB and DECB: `NoKey` without a cipher instance, else `InvalidBlockLength` unless `MLEN = 8`, else
`INMEM[0 .. 7]` (43_block_iterator.md R144, R145). -/
def blockOperand (s : State) : Except FaultCode (List Byte) := do
  require (s.keyValid = true) .noKey
  require (s.mlen.toNat = Config.blockBytes) .invalidBlockLength
  .ok (s.memRead .inmem 0 Config.blockBytes)

/-- The operand of ENCM: `NoKey` without a cipher instance, else `Capacity` when `MLEN > MSG_CAP`, else
`INMEM[0 .. MLEN-1]` (44_message_codec.md R160). -/
def messageOperand (s : State) : Except FaultCode (List Byte) := do
  require (s.keyValid = true) .noKey
  require (s.mlen.toNat ≤ s.cfg.msgCap) .capacity
  .ok (s.memRead .inmem 0 s.mlen.toNat)

/-- The operand of DECM: that of ENCM with the third check, `InvalidBlockLength` unless `MLEN` is a multiple of 8
(44_message_codec.md R164). -/
def ciphertextOperand (s : State) : Except FaultCode (List Byte) := do
  require (s.keyValid = true) .noKey
  require (s.mlen.toNat ≤ s.cfg.msgCap) .capacity
  require (s.mlen.toNat % Config.blockBytes = 0) .invalidBlockLength
  .ok (s.memRead .inmem 0 s.mlen.toNat)

end Sys2Proof.Machine
end

