-- ==== Sys2Proof/Machine/Key.lean ====
section
/-!
DEFINITION. The commands of unit 1: KLOAD and KCLR (41_key_schedule.md R113, R114).
-/

namespace Sys2Proof.Machine

/-- KLOAD after its discard: check, latch the key, derive every round key, construct the instance (41_key_schedule.md R113). -/
def loadKey (s : State) : Except FaultCode State := do
  let bytes ← keyOperand s
  let rk ← deriveBits s.cfg (bytesToBits bytes)
  .ok (s.installInstance (bytesToBits bytes) rk).unspecifySchedule

/-- KLOAD (41_key_schedule.md R113). The old instance is discarded first, and a fault does not undo that (60_exceptions.md
R193). -/
def execKload (s : State) : Host.Outcome State Fault Refusal :=
  unlessHalted s (finish s.discardInstance (loadKey s.discardInstance))

/-- KCLR (41_key_schedule.md R114). -/
def execKclr (s : State) : Host.Outcome State Fault Refusal :=
  unlessHalted s (finish s (.ok s.discardInstance))

end Sys2Proof.Machine
end

