-- ==== Sys2Proof/Machine/Round.lean ====
section
/-!
DEFINITION. The Feistel round function (42_round_function.md): `SUB`, `F` and `ROUND`.
-/

namespace Sys2Proof.Machine

/-- The row of an S-box lookup: `2 * X{0} + X{G-1}` (42_round_function.md R126). -/
def subRow (cfg : Cfg) (x : Bits) : Nat := 2 * (x.getD 0 false).toNat + (x.getD (cfg.g - 1) false).toNat

/-- The column of an S-box lookup: the value of the `G-2` middle bits (42_round_function.md R126). -/
def subColumn (cfg : Cfg) (x : Bits) : Nat := valOf ((x.drop 1).take (cfg.g - 2))

/-- `SUB(g, X)`: the entry of table `SBOX[g]` at the row and column of `X`, as 4 bits (42_round_function.md R126). A group of
another width fails `InvalidWidth` (00_scope.md R13), a table without that entry `IndexOutOfRange` (log 15). -/
def sub (cfg : Cfg) (g : Nat) (x : Bits) : Except FaultCode Bits := do
  if x.length ≠ cfg.g then .error .invalidWidth
  else
    let table ← element cfg.sbox g
    let row ← element table (subRow cfg x)
    let entry ← element row (subColumn cfg x)
    .ok (bitsOf entry Config.sOut)

/-- `SUB(g, X0), SUB(g+1, X1), ...` for a list of groups. -/
def subGroups (cfg : Cfg) : Nat → List Bits → Except FaultCode (List Bits)
  | _, [] => .ok []
  | g, x :: xs => do
    let y ← sub cfg g x
    let ys ← subGroups cfg (g + 1) xs
    .ok (y :: ys)

/-- `F(Rh, K)`: expand, XOR with the round key, substitute the eight groups, permute (42_round_function.md R127). -/
def feistelF (cfg : Cfg) (rh k : Bits) : Except FaultCode Bits := do
  let expanded ← permute rh cfg.e
  let mixed ← xorBits expanded k
  let groups ← split mixed Config.nGroups
  let outs ← subGroups cfg 0 groups
  permute (merge outs) cfg.p

/-- `ROUND(Lh, Rh, K) = (Rh, xor(Lh, F(Rh, K)))` (42_round_function.md R128). -/
def round (cfg : Cfg) (lh rh k : Bits) : Except FaultCode (Bits × Bits) := do
  let f ← feistelF cfg rh k
  let newRight ← xorBits lh f
  .ok (rh, newRight)

end Sys2Proof.Machine
end

