-- ==== Sys2Proof/Machine/BlockIterator.lean ====
section
/-!
DEFINITION. The block-cipher iterator (43_block_iterator.md): `kidx`, `crypt_block`, and the commands of unit 2, ENCB and
DECB.
-/

namespace Sys2Proof.Machine

/-- `kidx(act, i)`: the key index at round `i`, forward to encrypt and reverse to decrypt; the only place where the action
tag has an effect (43_block_iterator.md R142). -/
def kidx (cfg : Cfg) : Action → Nat → Nat
  | .encrypt, i => i
  | .decrypt, i => cfg.rounds - 1 - i

/-- The rounds from count `rc` on, `n` of them, on the halves `(L, R)` (43_block_iterator.md R141). -/
def runRounds (cfg : Cfg) (rk : List Bits) (act : Action) : Nat → Nat → Bits × Bits → Except FaultCode (Bits × Bits)
  | _, 0, lr => .ok lr
  | rc, n + 1, lr => do
    let k ← element rk (kidx cfg act rc)
    let lr' ← round cfg lr.1 lr.2 k
    runRounds cfg rk act (rc + 1) n lr'

/-- The optional initial permutation, for both action tags (43_block_iterator.md R141, D21). -/
def initialPermutation (cfg : Cfg) (v : Bits) : Except FaultCode Bits :=
  match cfg.ipfp with
  | none => .ok v
  | some tables => permute v tables.1

/-- The optional final permutation, for both action tags (43_block_iterator.md R141, D21). -/
def finalPermutation (cfg : Cfg) (v : Bits) : Except FaultCode Bits :=
  match cfg.ipfp with
  | none => .ok v
  | some tables => permute v tables.2

/-- `crypt_block(B, rk, act)` (43_block_iterator.md R141): the halves are merged in swapped order after the last round. -/
def cryptBlock (cfg : Cfg) (block : List Byte) (rk : List Bits) (act : Action) : Except FaultCode (List Byte) := do
  if block.length ≠ Config.blockBytes then .error .invalidBlockLength
  else
    let v ← initialPermutation cfg (bytesToBits block)
    let lr ← halves v
    let lr' ← runRounds cfg rk act 0 cfg.rounds lr
    let w ← finalPermutation cfg (merge [lr'.2, lr'.1])
    bitsToBytes w

/-- What ENCB and DECB do alike (43_block_iterator.md R144, R145). -/
def blockCommand (act : Action) (s : State) : Except FaultCode State := do
  let block ← blockOperand s
  let out ← cryptBlock s.cfg block s.rk act
  .ok (s.storeOutput out).unspecifyBlock

/-- ENCB (43_block_iterator.md R144). -/
def execEncb (s : State) : Host.Outcome State Fault Refusal := unlessHalted s (finish s (blockCommand .encrypt s))

/-- DECB (43_block_iterator.md R145). -/
def execDecb (s : State) : Host.Outcome State Fault Refusal := unlessHalted s (finish s (blockCommand .decrypt s))

end Sys2Proof.Machine
end

