-- ==== Sys2Proof/Machine/MessageCodec.lean ====
section
/-!
DEFINITION. The message padder and chunker (44_message_codec.md): `pad`, `strip`, `enc_message`, `dec_message`, and the
commands of unit 3, ENCM and DECM.
-/

namespace Sys2Proof.Machine

/-- `pad(M)`: `p = 8 - (len(M) mod 8)` bytes of value `p`, always at least one (44_message_codec.md R156). -/
def pad (m : List Byte) : List Byte :=
  m ++ List.replicate (Config.blockBytes - m.length % Config.blockBytes)
    (BitVec.ofNat 8 (Config.blockBytes - m.length % Config.blockBytes))

/-- `strip(Pp)`: remove as many bytes as the last byte says if it is in 1 .. 8, else nothing; with whether nothing valid was
found (44_message_codec.md R163). -/
def strip (pp : List Byte) : List Byte × Bool :=
  match pp.getLast? with
  | none => (pp, true)
  | some v =>
    if 1 ≤ v.toNat ∧ v.toNat ≤ Config.blockBytes then (pp.take (pp.length - v.toNat), false) else (pp, true)

/-- `crypt_block` on each of the first `n` Blocks, in index order, independently (44_message_codec.md R158). -/
def cryptBlocks (cfg : Cfg) (rk : List Bits) (act : Action) : Nat → List Byte → Except FaultCode (List Byte)
  | 0, _ => .ok []
  | n + 1, x => do
    let b ← cryptBlock cfg (x.take Config.blockBytes) rk act
    let rest ← cryptBlocks cfg rk act n (x.drop Config.blockBytes)
    .ok (b ++ rest)

/-- `enc_message(M, rk)` (44_message_codec.md R159). -/
def encMessage (cfg : Cfg) (m : List Byte) (rk : List Bits) : Except FaultCode (List Byte) :=
  cryptBlocks cfg rk .encrypt ((pad m).length / Config.blockBytes) (pad m)

/-- `dec_message(Ct, rk)` (44_message_codec.md R161). -/
def decMessage (cfg : Cfg) (ct : List Byte) (rk : List Bits) : Except FaultCode (List Byte × Bool) := do
  if ct.length % Config.blockBytes ≠ 0 then .error .invalidBlockLength
  else
    let pp ← cryptBlocks cfg rk .decrypt (ct.length / Config.blockBytes) ct
    .ok (strip pp)

/-- ENCM's body (44_message_codec.md R160). -/
def encryptMessage (s : State) : Except FaultCode State := do
  let m ← messageOperand s
  let ct ← encMessage s.cfg m s.rk
  .ok (s.storeOutput ct).unspecifyMessage

/-- DECM's body (44_message_codec.md R164). -/
def decryptMessage (s : State) : Except FaultCode State := do
  let ct ← ciphertextOperand s
  let (pt, bad) ← decMessage s.cfg ct s.rk
  .ok { (s.storeOutput pt).unspecifyMessage with badpad := bad }

/-- ENCM (44_message_codec.md R160). -/
def execEncm (s : State) : Host.Outcome State Fault Refusal := unlessHalted s (finish s (encryptMessage s))

/-- DECM (44_message_codec.md R164). -/
def execDecm (s : State) : Host.Outcome State Fault Refusal := unlessHalted s (finish s (decryptMessage s))

end Sys2Proof.Machine
end

