-- ==== Sys2Proof/Machine/Dispatch.lean ====
section
/-!
DEFINITION. The dispatch of a command to its meaning (30_encoding.md R74): one arm per command, each to a definition of its
own. A meaning holds the HALT test of R74 (log 14).
-/

namespace Sys2Proof.Machine

/-- Perform a command (30_encoding.md R74). -/
def exec (i : Instr) (s : State) : Host.Outcome State Fault Refusal :=
  match i with
  | .nop => Sys2Proof.Machine.execNop s
  | .rst => Sys2Proof.Machine.execRst s
  | .kload => Sys2Proof.Machine.execKload s
  | .kclr => Sys2Proof.Machine.execKclr s
  | .encb => Sys2Proof.Machine.execEncb s
  | .decb => Sys2Proof.Machine.execDecb s
  | .encm => Sys2Proof.Machine.execEncm s
  | .decm => Sys2Proof.Machine.execDecm s

end Sys2Proof.Machine
end

