-- ==== Sys2Proof/Machine/HostActions.lean ====
section
/-!
DEFINITION. The five host actions (45_control_and_host.md R177 to R181) and the BUSY rule (70_reset_and_hazards.md R221).
-/

namespace Sys2Proof.Machine

/-- A write of the word `w` to CMD: decode, perform or raise, `BUSY` being 1 from the write to the command's end
(30_encoding.md R74; 10_state.md R23). -/
def writeCmd (w : Word) (s : State) : Result :=
  mapNext State.endCommand
    (match decode w with
      | .ok i => exec i s.beginCommand
      | .error _ => reservedWord s.beginCommand)

/-- `HostWriteReg(n, v)` (45_control_and_host.md R177). -/
def hostWriteReg (n : Nat) (v : Word) (s : State) : Result :=
  match n with
  | 0 => writeCmd v s
  | 2 => .next { s with klen := v }
  | 3 => .next { s with mlen := v }
  | _ => .next s

/-- What register `n` reads as (45_control_and_host.md R178). -/
def State.regValue (s : State) (n : Nat) : Word :=
  match n with
  | 1 => s.statusWord
  | 2 => s.klen
  | 3 => s.mlen
  | 4 => s.olen
  | 5 => cfg0Word s.cfg
  | _ => 0#32

/-- `HostWriteMem(S, a, b)`: OUTMEM and offsets out of range ignore the write (45_control_and_host.md R179). -/
def hostWriteMem (sp : Space) (a : Nat) (b : Byte) (s : State) : State :=
  match sp with
  | .keymem => if a < bufferSize s.cfg .keymem then s.setByte .keymem a b else s
  | .inmem => if a < bufferSize s.cfg .inmem then s.setByte .inmem a b else s
  | .outmem => s

/-- What a buffer byte reads as to the host: KEYMEM and offsets out of range read 0 (45_control_and_host.md R180). -/
def State.memValue (s : State) (sp : Space) (a : Nat) : Byte :=
  match sp with
  | .keymem => 0#8
  | .inmem => if a < bufferSize s.cfg .inmem then s.byteAt .inmem a else 0#8
  | .outmem => if a < bufferSize s.cfg .outmem then s.byteAt .outmem a else 0#8

/-- A host action while `BUSY = 0`. -/
def actIdle (a : HostAction) (s : State) : Result :=
  match a with
  | .writeReg n v => hostWriteReg n v s
  | .readReg n => .next (s.reply (.reg (s.regValue n)))
  | .writeMem sp o b => .next (hostWriteMem sp o b s)
  | .readMem sp o => .next (s.reply (.byte (s.memValue sp o)))
  | .reset => .next s.resetAll

/-- A host action while `BUSY = 1`, which no step leaves behind: a write is ignored, a read of anything but STATUS returns an
unspecified value, HostReset resets (70_reset_and_hazards.md R221; log 13). -/
def actBusy (a : HostAction) (s : State) : Result :=
  match a with
  | .writeReg _ _ => .next s
  | .readReg n =>
    if n = 1 then .next (s.reply (.reg s.statusWord))
    else .next (s.reply (.reg (Config.freeRegReply s.draws))).advanceDraws
  | .writeMem _ _ _ => .next s
  | .readMem _ _ => .next (s.reply (.byte (Config.freeByteReply s.draws))).advanceDraws
  | .reset => .next s.resetAll

/-- A host action (45_control_and_host.md section 2). -/
def act (a : HostAction) (s : State) : Result := if s.busy then actBusy a s else actIdle a s

/-- The next pending host action, if any, taken off the list. -/
def State.popHost (s : State) : State := { s with host := s.host.tail }

/-- With no host action pending the FCC is idle and holds its state (60_exceptions.md R205, 70_reset_and_hazards.md R217). -/
def nextAction (s : State) : Result :=
  match s.host with
  | [] => .next s
  | a :: _ => act a s.popHost

end Sys2Proof.Machine
end

