-- ==== Sys2Proof/Machine/Session.lean ====
section
/-!
DEFINITION. Sessions as lists of host actions: the pseudo-commands of the script notation (30_encoding.md R77).
-/

namespace Sys2Proof.Machine

/-- Giving a command: `wr CMD, <word>` (30_encoding.md R77). -/
def giveCommand (i : Instr) : HostAction := .writeReg 0 (encode i)

/-- `wb <SPACE>[a], b0`, `wb <SPACE>[a+1], b1`, ... -/
def writeBytes (sp : Space) : Nat → List Byte → List HostAction
  | _, [] => []
  | a, b :: bs => .writeMem sp a b :: writeBytes sp (a + 1) bs

/-- `key <bytes>`: stage a key in KEYMEM and its length in KLEN (30_encoding.md R77). -/
def keyScript (bytes : List Byte) : List HostAction :=
  writeBytes .keymem 0 bytes ++ [.writeReg 2 (BitVec.ofNat 32 bytes.length)]

/-- `msg <bytes>`: place an input in INMEM and its length in MLEN (30_encoding.md R77). -/
def msgScript (bytes : List Byte) : List HostAction :=
  writeBytes .inmem 0 bytes ++ [.writeReg 3 (BitVec.ofNat 32 bytes.length)]

/-- `out` for an output of `n` bytes: `rd OLEN`, then `rb OUTMEM[0]` to `rb OUTMEM[n-1]` (30_encoding.md R77). -/
def outScript (n : Nat) : List HostAction := .readReg 4 :: (List.range n).map (HostAction.readMem .outmem)

/-- The writes of `mov`: the host has read OLEN and OUTMEM and writes them to INMEM and MLEN (30_encoding.md R77). What it
writes depends on what it read, so the script is a function of the state it reads (log 20). -/
def movScript (s : State) : List HostAction :=
  writeBytes .inmem 0 (s.memRead .outmem 0 s.olen.toNat) ++ [.writeReg 3 s.olen]

end Sys2Proof.Machine
end

