-- ==== Sys2Proof/Machine/Step.lean ====
section
/-!
DEFINITION. One step of the FCC: the next pending host action is performed completely (20_memory.md R56, R60). The FCC
fetches no instructions and has no program counter (10_state.md R22): a command word reaches it by a write of CMD.
-/

namespace Sys2Proof.Machine

/-- One step: the next pending host action. -/
def step (s : State) : Host.Outcome State Fault Refusal := nextAction s

/-- `s` with the write of a command word to CMD as the very next host action; the bits above `nbits` are zero. `BUSY` is 0,
as a write of CMD needs (70_reset_and_hazards.md R221; log 4). -/
def State.withFetchWord (s : State) (nbits w : Nat) : State :=
  { s with host := .writeReg 0 (BitVec.ofNat 32 (w % 2 ^ nbits)) :: s.host, busy := false }

end Sys2Proof.Machine
end

