-- ==== Sys2Proof/Safety.lean ====
section
/-!
DEFINITION. The terms claims use: when a session has gone wrong (70_reset_and_hazards.md R227), the shape of a round-key
file, what a command leaves unchanged (its frame), and the invariant every step keeps.
-/

namespace Sys2Proof.Machine

/-- A session has gone wrong if at its end `HALT = 1` or `ESTICKY != 0` (70_reset_and_hazards.md R227). -/
abbrev State.GoneWrong (s : State) : Prop := s.halt = true ∨ s.esticky ≠ 0#8

/-- A round-key file of the configuration's shape: `ROUNDS` vectors of `RK_BITS` bits (10_state.md R28). -/
abbrev RoundKeysShaped (cfg : Cfg) (rk : List Bits) : Prop :=
  rk.length = cfg.rounds ∧ ∀ k ∈ rk, k.length = cfg.rkBits

/-! ### Frames -/

/-- A buffer reads the same, byte by byte, specified or not. -/
def SameBuffer (s t : State) (sp : Space) : Prop :=
  ∀ a, t.byteAt sp a = s.byteAt sp a ∧ t.written sp a = s.written sp a

/-- The cipher instance is the same (`KEY`, `RK`, `KEY_VALID`). -/
def SameInstance (s t : State) : Prop := t.key = s.key ∧ t.rk = s.rk ∧ t.keyValid = s.keyValid

/-- The configuration and the host's side are the same. -/
def SameSurroundings (s t : State) : Prop := t.cfg = s.cfg ∧ t.host = s.host ∧ t.replies = s.replies

/-- What a data command (ENCB, DECB, ENCM, DECM) that succeeds leaves unchanged whatever it computes: everything but
`OUTMEM`, `OLEN`, `ERR`, `BADPAD` and the working registers `L`, `R`, `RC`, `BI` (20_memory.md R54). That `C` and `D` stay
is the model's choice (log 12). -/
structure DataFrame (s t : State) : Prop where
  surroundings : SameSurroundings s t
  cipher : SameInstance s t
  keymem : SameBuffer s t .keymem
  inmem : SameBuffer s t .inmem
  halt : t.halt = s.halt
  busy : t.busy = s.busy
  esticky : t.esticky = s.esticky
  klen : t.klen = s.klen
  mlen : t.mlen = s.mlen
  c : t.c = s.c
  d : t.d = s.d

/-- What a KLOAD that succeeds leaves unchanged: everything but the instance, `ERR` and `C`, `D`, `RC`
(41_key_schedule.md R113). That `L`, `R` and `BI` stay is the model's choice (log 12). -/
structure LoadFrame (s t : State) : Prop where
  surroundings : SameSurroundings s t
  buffers : ∀ sp, SameBuffer s t sp
  halt : t.halt = s.halt
  badpad : t.badpad = s.badpad
  busy : t.busy = s.busy
  esticky : t.esticky = s.esticky
  klen : t.klen = s.klen
  mlen : t.mlen = s.mlen
  olen : t.olen = s.olen
  l : t.l = s.l
  r : t.r = s.r
  bi : t.bi = s.bi

/-- The output of a data command that succeeds: `OLEN` bytes of `OUTMEM`, `ERR = 0`, and no other byte of `OUTMEM` is
specified (20_memory.md R54). -/
def OutputIs (t : State) (o : List Byte) : Prop :=
  t.olen.toNat = o.length ∧ t.memRead .outmem 0 o.length = o ∧ (∀ a, t.written .outmem a = decide (a < o.length)) ∧
    t.err = 0#4

/-- What any reset leaves (10_state.md R33): `STATUS`, `KLEN`, `MLEN`, `OLEN` are 0, no buffer byte is specified, the
configuration is the same; the host's side is not the FCC's. -/
def ResetLeaves (s t : State) : Prop :=
  SameSurroundings s t ∧ t.statusWord = 0#32 ∧ t.klen = 0#32 ∧ t.mlen = 0#32 ∧ t.olen = 0#32 ∧
    ∀ sp a, t.written sp a = false

/-- What a Block command does (43_block_iterator.md R144, R145): the faults in their order, else the Block's result.
That `BI` stays is the model's choice (log 12). -/
def BlockCommandEffect (i : Instr) (tag : Action) : Prop :=
  ∀ s : State, s.cfg.WF → RoundKeysShaped s.cfg s.rk → s.halt = false →
    (s.keyValid = false →
      exec i s = .next { s with err := 6#4, esticky := s.esticky ||| 0x40#8, busy := false }) ∧
    (s.keyValid = true ∧ s.mlen ≠ 8#32 →
      exec i s = .next { s with err := 3#4, esticky := s.esticky ||| 0x08#8, busy := false }) ∧
    (s.keyValid = true ∧ s.mlen = 8#32 →
      ∃ o t, cryptBlock s.cfg (s.memRead .inmem 0 8) s.rk tag = .ok o ∧ o.length = 8 ∧ exec i s = .next t ∧
        OutputIs t o ∧ t.badpad = s.badpad ∧ t.bi = s.bi ∧ DataFrame s t)

/-! ### The invariant -/

/-- What every step keeps. -/
structure State.Inv (s : State) : Prop where
  /-- the configuration is buildable (00_scope.md R8) -/
  config : s.cfg.WF
  /-- the buffers are in canonical form, inside their sizes (20_memory.md R50) -/
  keymem_wf : Memory.wf s.keymem = true
  inmem_wf : Memory.wf s.inmem = true
  outmem_wf : Memory.wf s.outmem = true
  keymem_below : Memory.below s.keymem (bufferSize s.cfg .keymem) = true
  inmem_below : Memory.below s.inmem (bufferSize s.cfg .inmem) = true
  /-- `OLEN` counts the specified bytes of `OUTMEM`, which lie at offsets below it (10_state.md R26, 20_memory.md R54) -/
  output : ∀ a, s.written .outmem a = decide (a < s.olen.toNat)
  output_fits : s.olen.toNat ≤ bufferSize s.cfg .outmem
  /-- with `KEY_VALID = 1` the round keys are those of `KEY` (41_key_schedule.md R116 (b)) -/
  cipher : s.keyValid = true → s.key.length = s.cfg.keyBits ∧ deriveBits s.cfg s.key = .ok s.rk
  /-- with `KEY_VALID = 0` there is no key (10_state.md R33; at power-on the model's choice, log 10) -/
  no_cipher : s.keyValid = false →
    s.key = zeros s.cfg.keyBits ∧ s.rk = List.replicate s.cfg.rounds (zeros s.cfg.rkBits)
  /-- `ERR` is a fault code of the table, and its bit is in `ESTICKY`; the bit of code 0 is never set (10_state.md R25) -/
  err_code : s.err.toNat ≤ 7
  err_sticky : s.err ≠ 0#4 → s.esticky.getLsbD s.err.toNat = true
  sticky_zero : s.esticky.getLsbD 0 = false
  /-- halted exactly after a reserved command word (60_exceptions.md R191, R194; the other panics are dead under `WF`) -/
  halted : s.halt = true ↔ s.err = 4#4
  /-- the working registers have their widths and the counters their bounds (10_state.md R21, R22) -/
  l_width : s.l.length = Config.halfBits
  r_width : s.r.length = Config.halfBits
  c_width : s.c.length = s.cfg.halfCd
  d_width : s.d.length = s.cfg.halfCd
  rc_bound : s.rc ≤ s.cfg.rounds
  bi_bound : s.bi ≤ s.cfg.msgCap / 8 + 1

end Sys2Proof.Machine
end

