-- ==== Sys2Proof/Certificates/Slice0/Obligations.lean ====
section
/-!
DEFINITION. The statements about the model, for the provers. Each docstring names the rule of spec/ it formalises.
-/

open Sys2Proof Sys2Proof.Machine

/-! ### Command words -/

/-- 30_encoding.md R72: the eight command words, written out as `ZERO UNIT ACT`, are the eight commands. -/
def Obligations.SpecWordsDecode : Prop :=
  decode 0b00000000000000000000000000000_00_0#32 = .ok .nop ∧
  decode 0b00000000000000000000000000000_00_1#32 = .ok .rst ∧
  decode 0b00000000000000000000000000000_01_0#32 = .ok .kload ∧
  decode 0b00000000000000000000000000000_01_1#32 = .ok .kclr ∧
  decode 0b00000000000000000000000000000_10_0#32 = .ok .encb ∧
  decode 0b00000000000000000000000000000_10_1#32 = .ok .decb ∧
  decode 0b00000000000000000000000000000_11_0#32 = .ok .encm ∧
  decode 0b00000000000000000000000000000_11_1#32 = .ok .decm

/-- 30_encoding.md R70, R72: every command's word decodes to it, and no other word does. -/
def Obligations.DecodeEncodeAgree : Prop :=
  ∀ (i : Instr) (w : Word), i.WellFormed → (decode w = .ok i ↔ w = encode i)

/-- 30_encoding.md R75: the reserved words are exactly those at or above 8; every other word is a command. -/
def Obligations.ReservedWordsAreThoseFromEight : Prop :=
  ∀ w : Word, (decode w = .error (.reservedWord w) ↔ 8 ≤ w.toNat) ∧ (w.toNat < 8 → ∃ i, decode w = .ok i)

/-! ### The step and the dispatch -/

/-- 30_encoding.md R74, 45_control_and_host.md R177, 10_state.md R23: a step whose host action writes a command's word to
CMD performs that command, `BUSY` being set by the write and cleared at the command's end. -/
def Obligations.StepRunsDecodedCommand : Prop :=
  ∀ (s : State) (w : Word) (i : Instr) (rest : List HostAction),
    s.host = .writeReg 0 w :: rest → s.busy = false → decode w = .ok i → i.WellFormed →
      step s = mapNext State.endCommand (exec i { s with host := rest, busy := true })

/-- 30_encoding.md R75, 60_exceptions.md R193: a reserved word written while not halted raises `InvalidAction`: `ERR` 4,
`ESTICKY` bit 4, `HALT`; nothing else changes. -/
def Obligations.ReservedWordPanics : Prop :=
  ∀ (s : State) (w : Word) (rest : List HostAction),
    s.host = .writeReg 0 w :: rest → s.busy = false → s.halt = false → 8 ≤ w.toNat →
      step s = .next { s with host := rest, err := 4#4, esticky := s.esticky ||| 0x10#8, halt := true }

/-- 60_exceptions.md R194, 30_encoding.md R74: with `HALT = 1` every word but RST's is ignored without any change of state,
and RST clears STATUS. -/
def Obligations.HaltedIgnoresAllButRst : Prop :=
  ∀ (s : State) (w : Word) (rest : List HostAction),
    s.host = .writeReg 0 w :: rest → s.busy = false → s.halt = true →
      (w ≠ 1#32 → step s = .next { s with host := rest }) ∧
      (w = 1#32 → ∃ t, step s = .next t ∧ t.statusWord = 0#32)

/-- 70_reset_and_hazards.md R217, 60_exceptions.md R205: with no host action the FCC does nothing. -/
def Obligations.IdleHoldsState : Prop := ∀ s : State, s.host = [] → step s = .next s

/-- 92_eei_decisions.md D2: the step function is total: every state has a next state. -/
def Obligations.EveryStepAnswers : Prop := ∀ s : State, ∃ t, step s = .next t

/-- 10_state.md R23: `BUSY` is over when the step is: every read of STATUS the model can express sees `BUSY = 0`. -/
def Obligations.BusyNeverOutlastsStep : Prop :=
  ∀ s t : State, s.busy = false → step s = .next t → t.busy = false

/-! ### Host actions -/

/-- 45_control_and_host.md R177, but for register 0: a write of KLEN or MLEN stores the value, whatever the flags hold; a
write of any other register changes nothing. -/
def Obligations.RegisterWritesStoreLengths : Prop :=
  ∀ (s : State) (n : Nat) (v : Word) (rest : List HostAction),
    s.host = .writeReg n v :: rest → s.busy = false → n ≠ 0 →
      step s = .next (if n = 2 then { s with host := rest, klen := v }
        else if n = 3 then { s with host := rest, mlen := v } else { s with host := rest })

/-- 45_control_and_host.md R178: what each register reads as; the read changes nothing but the host's replies. -/
def Obligations.RegisterReadsReply : Prop :=
  ∀ (s : State) (n : Nat) (rest : List HostAction),
    s.host = .readReg n :: rest → s.busy = false →
      step s = .next { s with
        host := rest
        replies := .reg (if n = 1 then s.statusWord else if n = 2 then s.klen else if n = 3 then s.mlen
          else if n = 4 then s.olen else if n = 5 then cfg0Word s.cfg else 0#32) :: s.replies }

/-- 45_control_and_host.md R179: a write of a byte of KEYMEM or INMEM inside its size stores the byte and nothing else; any
other buffer write changes nothing. -/
def Obligations.BufferWritesStoreOneByte : Prop :=
  ∀ (s : State) (sp : Space) (a : Nat) (b : Byte) (rest : List HostAction),
    s.host = .writeMem sp a b :: rest → s.busy = false →
      (sp ≠ .outmem ∧ a < (if sp = .keymem then s.cfg.keyCap else s.cfg.msgCap) →
        ∃ t, step s = .next t ∧ t.byteAt sp a = b ∧ t.written sp a = true ∧
          (∀ sp' x, (sp', x) ≠ (sp, a) → t.byteAt sp' x = s.byteAt sp' x ∧ t.written sp' x = s.written sp' x) ∧
          { t with keymem := s.keymem, inmem := s.inmem } = { s with host := rest }) ∧
      (sp = .outmem ∨ (if sp = .keymem then s.cfg.keyCap else s.cfg.msgCap) ≤ a → step s = .next { s with host := rest })

/-- 45_control_and_host.md R180, 20_memory.md R51: KEYMEM and offsets out of range read 0, INMEM and OUTMEM return the byte;
the read changes nothing but the host's replies. A byte never written, or of OUTMEM at or above `OLEN`, is one free value at
every read until it is written or made unspecified again: the model's choice (log 6, log 8), where
93_implementation_defined.md U1 and U2 give an arbitrary byte at each read. -/
def Obligations.BufferReadsReply : Prop :=
  ∀ (s : State) (sp : Space) (a : Nat) (rest : List HostAction),
    s.host = .readMem sp a :: rest → s.busy = false →
      step s = .next { s with
        host := rest
        replies := .byte (if (sp = .inmem ∧ a < s.cfg.msgCap) ∨ (sp = .outmem ∧ a < s.cfg.msgCap + 8)
          then s.byteAt sp a else 0#8) :: s.replies }

/-- 70_reset_and_hazards.md R215, 45_control_and_host.md R181: HostReset, in any state, leaves what 10_state.md R33 says. -/
def Obligations.HostResetEffect : Prop :=
  ∀ (s : State) (rest : List HostAction), s.host = .reset :: rest →
    ∃ t, step s = .next t ∧ ResetLeaves { s with host := rest } t

/-- 70_reset_and_hazards.md R221: while `BUSY = 1` a write is ignored, STATUS reads with its `BUSY` bit, and any other read
replies something and changes no state of the FCC. -/
def Obligations.BusyIgnoresWrites : Prop :=
  ∀ (s : State) (a : HostAction) (rest : List HostAction), s.host = a :: rest → s.busy = true →
    ((∃ n v, a = .writeReg n v) ∨ (∃ sp o b, a = .writeMem sp o b) → step s = .next { s with host := rest }) ∧
    (a = .readReg 1 → step s = .next { s with host := rest, replies := .reg s.statusWord :: s.replies }) ∧
    ((∃ n, n ≠ 1 ∧ a = .readReg n) ∨ (∃ sp o, a = .readMem sp o) → ∃ x t, step s = .next t ∧
      { t with draws := s.draws } = { s with host := rest, replies := x :: s.replies })

/-- 20_memory.md R51, 60_exceptions.md R200: no host action but a command tells the host anything of the key: from two
states that differ in `KEY`, `RK`, `KEYMEM` and the working registers only, it gets the same replies. -/
def Obligations.HostActionsRevealNoKey : Prop :=
  ∀ (s t s' t' : State) (a : HostAction) (rest : List HostAction),
    s.host = a :: rest → (∀ w, a ≠ .writeReg 0 w) →
    t = { s with key := t.key, rk := t.rk, keymem := t.keymem, l := t.l, r := t.r, c := t.c, d := t.d,
                 rc := t.rc, bi := t.bi } →
    step s = .next s' → step t = .next t' → s'.replies = t'.replies

/-! ### Registers made of fields -/

/-- 10_state.md R25: STATUS, field by field. -/
def Obligations.StatusFields : Prop :=
  ∀ s : State, s.statusWord.toNat =
    s.busy.toNat + 2 * s.keyValid.toNat + 4 * s.halt.toNat + 8 * s.badpad.toNat + 16 * s.err.toNat +
      256 * s.esticky.toNat

/-- 10_state.md R29: CFG0, field by field, for the values the hardware may take. -/
def Obligations.Cfg0Fields : Prop :=
  ∀ c : Cfg, c.InRange → (cfg0Word c).toNat =
    c.rounds + 2 ^ 8 * c.g + 2 ^ 12 * c.ipfp.isSome.toNat + 2 ^ 16 * c.keyBytes

/-! ### The commands -/

/-- 45_control_and_host.md R175: NOP changes nothing, in any state. -/
def Obligations.NopEffect : Prop := encode .nop = 0#32 ∧ ∀ s : State, exec .nop s = .next s

/-- 45_control_and_host.md R176: RST, in any state, halted or not, leaves what a reset leaves, and a zero key. -/
def Obligations.RstEffect : Prop :=
  encode .rst = 1#32 ∧ ∀ s : State, ∃ t, exec .rst s = .next t ∧ ResetLeaves s t ∧ t.key = zeros s.cfg.keyBits ∧
    t.rk = List.replicate s.cfg.rounds (zeros s.cfg.rkBits)

/-- 41_key_schedule.md R114: KCLR empties the instance and writes `ERR`; nothing else. -/
def Obligations.KclrEffect : Prop :=
  encode .kclr = 3#32 ∧ ∀ s : State, s.halt = false →
    exec .kclr s = .next { s with
      keyValid := false, key := zeros s.cfg.keyBits, rk := List.replicate s.cfg.rounds (zeros s.cfg.rkBits), err := 0#4 }

/-- 41_key_schedule.md R113: KLOAD discards the instance; `Capacity` if `KLEN > KEY_CAP`; else `InvalidKey` if
`KLEN < KEY_BYTES`; else the key is latched and every round key derived. A fault does not undo the discard.
The model's choices: `L`, `R` and `BI` stay as they were (log 12), and a byte of KEYMEM never written is a free value on
which KLOAD succeeds (log 6). -/
def Obligations.KloadEffect : Prop :=
  encode .kload = 2#32 ∧ ∀ s : State, s.cfg.WF → s.halt = false →
    (s.cfg.keyCap < s.klen.toNat →
      exec .kload s = .next { s with
        keyValid := false, key := zeros s.cfg.keyBits, rk := List.replicate s.cfg.rounds (zeros s.cfg.rkBits),
        err := 7#4, esticky := s.esticky ||| 0x80#8, busy := false }) ∧
    (s.klen.toNat < s.cfg.keyBytes →
      exec .kload s = .next { s with
        keyValid := false, key := zeros s.cfg.keyBits, rk := List.replicate s.cfg.rounds (zeros s.cfg.rkBits),
        err := 1#4, esticky := s.esticky ||| 0x02#8, busy := false }) ∧
    (s.cfg.keyBytes ≤ s.klen.toNat ∧ s.klen.toNat ≤ s.cfg.keyCap →
      ∃ t, exec .kload s = .next t ∧ t.keyValid = true ∧
        t.key = bytesToBits (s.memRead .keymem 0 s.cfg.keyBytes) ∧ deriveBits s.cfg t.key = .ok t.rk ∧
        t.err = 0#4 ∧ LoadFrame s t)

/-- 43_block_iterator.md R144: ENCB. The model's choices: `C`, `D` and `BI` stay as they were (log 12), and a byte of INMEM
never written is a free value on which ENCB succeeds (log 6). -/
def Obligations.EncbEffect : Prop := encode .encb = 4#32 ∧ BlockCommandEffect .encb .encrypt

/-- 43_block_iterator.md R145: DECB. The model's choices: `C`, `D` and `BI` stay as they were (log 12), and a byte of INMEM
never written is a free value on which DECB succeeds (log 6). -/
def Obligations.DecbEffect : Prop := encode .decb = 5#32 ∧ BlockCommandEffect .decb .decrypt

/-- 44_message_codec.md R160: ENCM: `NoKey`, `Capacity`, else the ciphertext of `INMEM[0 .. MLEN-1]`.
The model's choices: `C` and `D` stay as they were (log 12), and a byte of INMEM never written is a free value on which
ENCM succeeds (log 6). -/
def Obligations.EncmEffect : Prop :=
  encode .encm = 6#32 ∧ ∀ s : State, s.cfg.WF → RoundKeysShaped s.cfg s.rk → s.halt = false →
    (s.keyValid = false →
      exec .encm s = .next { s with err := 6#4, esticky := s.esticky ||| 0x40#8, busy := false }) ∧
    (s.keyValid = true ∧ s.cfg.msgCap < s.mlen.toNat →
      exec .encm s = .next { s with err := 7#4, esticky := s.esticky ||| 0x80#8, busy := false }) ∧
    (s.keyValid = true ∧ s.mlen.toNat ≤ s.cfg.msgCap →
      ∃ ct t, encMessage s.cfg (s.memRead .inmem 0 s.mlen.toNat) s.rk = .ok ct ∧
        ct.length = s.mlen.toNat + 8 - s.mlen.toNat % 8 ∧ exec .encm s = .next t ∧
        OutputIs t ct ∧ t.badpad = s.badpad ∧ DataFrame s t)

/-- 44_message_codec.md R164: DECM: `NoKey`, `Capacity`, `InvalidBlockLength`, else the stripped plaintext and `BADPAD`.
The model's choices: `C` and `D` stay as they were (log 12), and a byte of INMEM never written is a free value on which
DECM succeeds (log 6). -/
def Obligations.DecmEffect : Prop :=
  encode .decm = 7#32 ∧ ∀ s : State, s.cfg.WF → RoundKeysShaped s.cfg s.rk → s.halt = false →
    (s.keyValid = false →
      exec .decm s = .next { s with err := 6#4, esticky := s.esticky ||| 0x40#8, busy := false }) ∧
    (s.keyValid = true ∧ s.cfg.msgCap < s.mlen.toNat →
      exec .decm s = .next { s with err := 7#4, esticky := s.esticky ||| 0x80#8, busy := false }) ∧
    (s.keyValid = true ∧ s.mlen.toNat ≤ s.cfg.msgCap ∧ s.mlen.toNat % 8 ≠ 0 →
      exec .decm s = .next { s with err := 3#4, esticky := s.esticky ||| 0x08#8, busy := false }) ∧
    (s.keyValid = true ∧ s.mlen.toNat ≤ s.cfg.msgCap ∧ s.mlen.toNat % 8 = 0 →
      ∃ pt bad t, decMessage s.cfg (s.memRead .inmem 0 s.mlen.toNat) s.rk = .ok (pt, bad) ∧
        exec .decm s = .next t ∧ OutputIs t pt ∧ t.badpad = bad ∧ DataFrame s t)

/-! ### Rules of the whole machine -/

/-- 60_exceptions.md R191, R194: with a buildable configuration no command but a reserved word sets `HALT`: codes 2, 4 and 5
are not produced by a command. -/
def Obligations.CommandsNeverPanic : Prop :=
  ∀ (i : Instr) (s t : State), s.cfg.WF → RoundKeysShaped s.cfg s.rk → s.halt = false → s.err ∉ [2#4, 4#4, 5#4] →
    exec i s = .next t → t.halt = false ∧ t.err ∉ [2#4, 4#4, 5#4]

/-- 60_exceptions.md R193, R194: after a fault of code `c` the state is the one before the command, but for `ERR`, the bit
of `c` in `ESTICKY`, `HALT` for a panic, `BUSY`, and KLOAD's discard of the instance. -/
def Obligations.FaultsArePrecise : Prop :=
  ∀ (i : Instr) (s t : State), s.halt = false → i ≠ .nop → exec i s = .next t → t.err ≠ 0#4 →
    ∃ c : Nat, 1 ≤ c ∧ c ≤ 7 ∧ t = { s with
      err := BitVec.ofNat 4 c
      esticky := s.esticky ||| BitVec.ofNat 8 (2 ^ c)
      halt := decide (c = 2 ∨ c = 4 ∨ c = 5)
      busy := false
      keyValid := if i = .kload then false else s.keyValid
      key := if i = .kload then zeros s.cfg.keyBits else s.key
      rk := if i = .kload then List.replicate s.cfg.rounds (zeros s.cfg.rkBits) else s.rk }

/-- 41_key_schedule.md R116 (c): NOP, ENCB, DECB, ENCM and DECM never write `KEY`, `RK` or `KEY_VALID`. -/
def Obligations.DataCommandsKeepInstance : Prop :=
  ∀ (i : Instr) (s t : State), i ∈ [Instr.nop, .encb, .decb, .encm, .decm] → exec i s = .next t → SameInstance s t

/-- 41_key_schedule.md R116 (d), 70_reset_and_hazards.md R223: the instance changes only by a command or a reset, never by
a write of KEYMEM, KLEN or any other host action. -/
def Obligations.HostWritesKeepInstance : Prop :=
  ∀ (s t : State) (a : HostAction) (rest : List HostAction), s.host = a :: rest → a ≠ .reset →
    (∀ w, a ≠ .writeReg 0 w) → step s = .next t → SameInstance s t

/-- 60_exceptions.md R196: no step clears a bit of `ESTICKY` but an RST or a reset. -/
def Obligations.StickyBitsStay : Prop :=
  ∀ (s t : State) (a : HostAction) (rest : List HostAction) (k : Nat), s.host = a :: rest → a ≠ .reset →
    a ≠ .writeReg 0 1#32 → step s = .next t → s.esticky.getLsbD k = true → t.esticky.getLsbD k = true

/-- 00_scope.md R2, 70_reset_and_hazards.md R216: no step changes the configuration. -/
def Obligations.ConfigurationIsConstant : Prop := ∀ s t : State, step s = .next t → t.cfg = s.cfg

/-- The reset state meets the invariant. (It is stated over the configuration T32, log 2, and the zero key and working
registers, log 10 and 11: the model's choices.) -/
def Obligations.ResetMeetsInvariant : Prop := State.reset.Inv

/-- Every step keeps the invariant (`State.Inv`): buffers in canonical form, `OLEN` counting the specified output bytes,
41_key_schedule.md R116 (b), `HALT` exactly with code 4, reserved bits 0, registers of their widths. -/
def Obligations.StepKeepsInvariant : Prop := ∀ s t : State, s.Inv → step s = .next t → t.Inv

/-! ### Bit-vector utilities -/

/-- 40_bitvector.md R91: output bit `i` is input bit `T[i]`; an entry beyond the width fails. -/
def Obligations.PermuteSelectsBits : Prop :=
  ∀ (v : Bits) (table : List Nat),
    ((∀ x ∈ table, x < v.length) → ∃ o : Bits, permute v table = .ok o ∧ o.length = table.length ∧
      ∀ i x : Nat, table[i]? = some x → o[i]? = v[x]?) ∧
    ((∃ x ∈ table, v.length ≤ x) → permute v table = .error .indexOutOfRange)

/-- 40_bitvector.md R92: permuting by two tables inverse to each other gives the vector back. -/
def Obligations.InverseTablesCancel : Prop :=
  ∀ (v : Bits) (first second : List Nat), first.length = v.length → second.length = v.length →
    (∀ x ∈ first, x < v.length) → (∀ x ∈ second, x < v.length) →
    (∀ i < v.length, first[second.getD i 0]? = some i) →
    ∃ w, permute v first = .ok w ∧ permute w second = .ok v

/-- 40_bitvector.md R93, R94: merging concatenates; a split fails unless `k` divides the width; else it gives `k` slices of equal width whose
merge is the vector; and slices of one width are the split of their merge. -/
def Obligations.SplitAndMergeInvert : Prop :=
  (∀ (v : Bits) (k : Nat), (k = 0 ∨ v.length % k ≠ 0 → split v k = .error .invalidWidth) ∧
    (k ≠ 0 ∧ v.length % k = 0 → ∃ parts, split v k = .ok parts ∧ parts.length = k ∧
      (∀ x ∈ parts, x.length = v.length / k) ∧ merge parts = v)) ∧
  (∀ (parts : List Bits) (w : Nat), parts ≠ [] → (∀ x ∈ parts, x.length = w) →
    split (merge parts) parts.length = .ok parts) ∧
  merge [] = [] ∧ (∀ (x : Bits) (parts : List Bits), merge (x :: parts) = x ++ merge parts)

/-- 40_bitvector.md R95: the XOR combiner is bitwise on equal widths and fails on others; commutative, self-inverse. -/
def Obligations.XorCombines : Prop :=
  ∀ a b : Bits, (a.length ≠ b.length → xorBits a b = .error .invalidWidth) ∧
    (a.length = b.length → ∃ o : Bits, xorBits a b = .ok o ∧ o.length = a.length ∧
      (∀ (i : Nat) (x y : Bool), a[i]? = some x → b[i]? = some y → o[i]? = some (x ^^ y)) ∧
      xorBits b a = .ok o ∧ xorBits o b = .ok a ∧ xorBits a a = .ok (zeros a.length))

/-- 40_bitvector.md R96: `xor_with_carry` adds the two values; the overflow bit is the carry out. -/
def Obligations.XorWithCarryAdds : Prop :=
  ∀ a b : Bits, (a.length ≠ b.length → xorWithCarry a b = .error .invalidWidth) ∧
    (a.length = b.length → ∃ carry o, xorWithCarry a b = .ok (carry, o) ∧ o.length = a.length ∧
      2 ^ a.length * carry.toNat + valOf o = valOf a + valOf b)

/-- 40_bitvector.md R97: bit `i` of the rotation is bit `(i + n) mod w`; two rotations are one by the sum. -/
def Obligations.CyclicShiftRotates : Prop :=
  ∀ (v : Bits) (m n : Nat), (cyclicShiftLeft v n).length = v.length ∧
    (∀ i < v.length, (cyclicShiftLeft v n)[i]? = v[(i + n) % v.length]?) ∧
    cyclicShiftLeft (cyclicShiftLeft v m) n = cyclicShiftLeft v (m + n)

/-- 40_bitvector.md R98, R99: bit `8k + j` is the bit of weight `2^(7-j)` of byte `k`; the two conversions are inverse to
each other, and a width that is no multiple of 8 fails. -/
def Obligations.BytesAndBitsInvert : Prop :=
  (∀ bytes : List Byte, (bytesToBits bytes).length = 8 * bytes.length ∧
    (∀ (k j : Nat) (b : Byte), bytes[k]? = some b → j < 8 →
      (bytesToBits bytes)[8 * k + j]? = some (decide (b.toNat / 2 ^ (7 - j) % 2 = 1))) ∧
    bitsToBytes (bytesToBits bytes) = .ok bytes) ∧
  (∀ v : Bits, (v.length % 8 ≠ 0 → bitsToBytes v = .error .invalidWidth) ∧
    (v.length % 8 = 0 → ∃ bytes, bitsToBytes v = .ok bytes ∧ bytes.length = v.length / 8 ∧ bytesToBits bytes = v))

/-! ### Key schedule -/

/-- 41_key_schedule.md R110, R115: a key of at least `KEY_BYTES` bytes gives exactly `ROUNDS` subkeys of `RK_BITS` bits,
which depend on its first `KEY_BYTES` bytes only; a shorter key fails `InvalidKey`. -/
def Obligations.DeriveGivesRoundKeys : Prop :=
  ∀ (cfg : Cfg) (key : List Byte), cfg.WF →
    (key.length < cfg.keyBytes → derive cfg key = .error .invalidKey) ∧
    (cfg.keyBytes ≤ key.length → ∃ rk, derive cfg key = .ok rk ∧ RoundKeysShaped cfg rk ∧
      ∀ other : List Byte, other.take cfg.keyBytes = key.take cfg.keyBytes → derive cfg other = .ok rk)

/-- 41_key_schedule.md R112: the closed form of the key schedule: subkey `r` is taken from the two initial halves rotated
by the sum of the shift amounts up to `r`; two rounds whose sums differ by a multiple of the halves' width have one key. -/
def Obligations.KeyScheduleClosedForm : Prop :=
  ∀ (cfg : Cfg) (key : Bits), cfg.WF → key.length = cfg.keyBits →
    ∃ (cd c₀ d₀ : Bits) (rk : List Bits), permute key cfg.pc1 = .ok cd ∧ split cd 2 = .ok [c₀, d₀] ∧ deriveBits cfg key = .ok rk ∧
      (∀ r < cfg.rounds, ∃ k, rk[r]? = some k ∧
        permute (cyclicShiftLeft c₀ (cfg.shift.take (r + 1)).sum ++ cyclicShiftLeft d₀ (cfg.shift.take (r + 1)).sum)
          cfg.pc2 = .ok k) ∧
      ∀ r₁ r₂ : Nat, r₁ ≤ r₂ → r₂ < cfg.rounds →
        ((cfg.shift.take (r₂ + 1)).sum - (cfg.shift.take (r₁ + 1)).sum) % (cfg.cdBits / 2) = 0 → rk[r₂]? = rk[r₁]?

/-! ### Round function -/

/-- 42_round_function.md R126: `SUB(g, X)` as the flat lookup table over `val(X)`. -/
def Obligations.SubIsFlatLookup : Prop :=
  ∀ (cfg : Cfg) (g : Nat) (x : Bits), cfg.WF → g < 8 → x.length = cfg.g →
    ∃ table row entry, cfg.sbox[g]? = some table ∧
      table[2 * (valOf x / 2 ^ (cfg.g - 1)) + valOf x % 2]? = some row ∧
      row[valOf x / 2 % 2 ^ (cfg.g - 2)]? = some entry ∧ entry < 16 ∧
      sub cfg g x = .ok (bitsOf entry 4) ∧ valOf (bitsOf entry 4) = entry

/-- 42_round_function.md R127: group `j` of the expanded and keyed half is bits `j*G .. j*G+G-1`, uses table `SBOX[j]`, and
its 4 output bits are bits `4j .. 4j+3` of the vector that `P` permutes. -/
def Obligations.FSubstitutesGroupwise : Prop :=
  ∀ (cfg : Cfg) (rh k : Bits), cfg.WF → rh.length = 32 → k.length = cfg.rkBits →
    ∃ e x y o, permute rh cfg.e = .ok e ∧ xorBits e k = .ok x ∧ y.length = 32 ∧
      (∀ j < 8, sub cfg j ((x.drop (j * cfg.g)).take cfg.g) = .ok ((y.drop (4 * j)).take 4)) ∧
      permute y cfg.p = .ok o ∧ o.length = 32 ∧ feistelF cfg rh k = .ok o

/-- 42_round_function.md R128, R129: a round is `(R, L xor F(R, K))` of the old halves, and exchanging the halves, applying
the round with the same key and exchanging again undoes it. -/
def Obligations.RoundUndoesItself : Prop :=
  ∀ (cfg : Cfg) (lh rh k : Bits), cfg.WF → lh.length = 32 → rh.length = 32 → k.length = cfg.rkBits →
    ∃ f b, feistelF cfg rh k = .ok f ∧ xorBits lh f = .ok b ∧ round cfg lh rh k = .ok (rh, b) ∧
      round cfg b rh k = .ok (rh, lh)

/-! ### Block iterator -/

/-- 43_block_iterator.md R141, R142: `crypt_block` round by round: the halves of the (optionally permuted) Block, `ROUNDS`
rounds with the keys forward or in reverse, the halves merged in swapped order and (optionally) permuted; a byte sequence
of another length fails. -/
def Obligations.CryptBlockRunsRounds : Prop :=
  ∀ (cfg : Cfg) (block : List Byte) (rk : List Bits) (tag : Action), cfg.WF → RoundKeysShaped cfg rk →
    (block.length ≠ 8 → cryptBlock cfg block rk tag = .error .invalidBlockLength) ∧
    (block.length = 8 → ∃ (v w : Bits) (lr : Nat → Bits × Bits) (out : List Byte),
      (cfg.ipfp = none → v = bytesToBits block) ∧
      (∀ ip fp, cfg.ipfp = some (ip, fp) → permute (bytesToBits block) ip = .ok v) ∧
      split v 2 = .ok [(lr 0).1, (lr 0).2] ∧
      (∀ i < cfg.rounds, ∃ k, rk[if tag = .encrypt then i else cfg.rounds - 1 - i]? = some k ∧
        round cfg (lr i).1 (lr i).2 k = .ok (lr (i + 1))) ∧
      (cfg.ipfp = none → w = (lr cfg.rounds).2 ++ (lr cfg.rounds).1) ∧
      (∀ ip fp, cfg.ipfp = some (ip, fp) → permute ((lr cfg.rounds).2 ++ (lr cfg.rounds).1) fp = .ok w) ∧
      bitsToBytes w = .ok out ∧ cryptBlock cfg block rk tag = .ok out)

/-- 43_block_iterator.md R142: decrypting is encrypting with the round keys in reverse order. -/
def Obligations.DecryptReversesKeyOrder : Prop :=
  ∀ (cfg : Cfg) (block : List Byte) (rk : List Bits), rk.length = cfg.rounds →
    cryptBlock cfg block rk .decrypt = cryptBlock cfg block rk.reverse .encrypt

/-- 43_block_iterator.md R146: the round trip of a Block, both ways, for every round-key list. -/
def Obligations.BlockRoundTrip : Prop :=
  ∀ (cfg : Cfg) (block : List Byte) (rk : List Bits), cfg.WF → block.length = 8 → RoundKeysShaped cfg rk →
    ∃ enc dec, cryptBlock cfg block rk .encrypt = .ok enc ∧ cryptBlock cfg enc rk .decrypt = .ok block ∧
      cryptBlock cfg block rk .decrypt = .ok dec ∧ cryptBlock cfg dec rk .encrypt = .ok block

/-! ### Message codec -/

/-- 44_message_codec.md R156: always 1 to 8 bytes of padding, each of value their count, after the message. -/
def Obligations.PadAlwaysAdds : Prop :=
  ∀ m : List Byte, ∃ p, 1 ≤ p ∧ p ≤ 8 ∧ (m.length + p) % 8 = 0 ∧ pad m = m ++ List.replicate p (BitVec.ofNat 8 p)

/-- 44_message_codec.md R163: what `strip` removes, and that it undoes `pad`. -/
def Obligations.StripRemovesPadding : Prop :=
  strip [] = ([], true) ∧
  (∀ (x : List Byte) (v : Byte), 1 ≤ v.toNat ∧ v.toNat ≤ 8 →
    strip (x ++ [v]) = ((x ++ [v]).take ((x ++ [v]).length - v.toNat), false)) ∧
  (∀ (x : List Byte) (v : Byte), v.toNat = 0 ∨ 8 < v.toNat → strip (x ++ [v]) = (x ++ [v], true)) ∧
  (∀ m : List Byte, strip (pad m) = (m, false))

/-- 44_message_codec.md R159: `enc_message` is `crypt_block` on each Block of the padded message, in order. -/
def Obligations.EncMessageIsBlockwise : Prop :=
  ∀ (cfg : Cfg) (m : List Byte) (rk : List Bits), cfg.WF → RoundKeysShaped cfg rk →
    ∃ ct, encMessage cfg m rk = .ok ct ∧ ct.length = m.length + 8 - m.length % 8 ∧ ct.length = (pad m).length ∧
      ∀ k < ct.length / 8, cryptBlock cfg (((pad m).drop (8 * k)).take 8) rk .encrypt = .ok ((ct.drop (8 * k)).take 8)

/-- 44_message_codec.md R161: `dec_message` fails on a length that is no multiple of 8; else it strips the result of
`crypt_block` on each Block, in the same order. -/
def Obligations.DecMessageIsBlockwise : Prop :=
  ∀ (cfg : Cfg) (ct : List Byte) (rk : List Bits), cfg.WF → RoundKeysShaped cfg rk →
    (ct.length % 8 ≠ 0 → decMessage cfg ct rk = .error .invalidBlockLength) ∧
    (ct.length % 8 = 0 → ∃ pp, pp.length = ct.length ∧ decMessage cfg ct rk = .ok (strip pp) ∧
      ∀ k < ct.length / 8, cryptBlock cfg ((ct.drop (8 * k)).take 8) rk .decrypt = .ok ((pp.drop (8 * k)).take 8))

/-- 44_message_codec.md R158, R166: ECB: Block `k` of the output is `crypt_block` of Block `k` of the input alone. -/
def Obligations.BlocksAreIndependent : Prop :=
  ∀ (cfg : Cfg) (rk : List Bits) (tag : Action) (n : Nat) (x : List Byte), cfg.WF → RoundKeysShaped cfg rk →
    x.length = 8 * n → ∃ y, cryptBlocks cfg rk tag n x = .ok y ∧ y.length = 8 * n ∧
      ∀ k < n, cryptBlock cfg ((x.drop (8 * k)).take 8) rk tag = .ok ((y.drop (8 * k)).take 8)

/-- 44_message_codec.md R166 (c): if `M` is a prefix of `M'` and its length is a multiple of 8, the two ciphertexts agree on
the first `len(M)` bytes. -/
def Obligations.AlignedPrefixKeepsCiphertext : Prop :=
  ∀ (cfg : Cfg) (rk : List Bits) (m more : List Byte), cfg.WF → RoundKeysShaped cfg rk → m.length % 8 = 0 →
    ∃ ct ct', encMessage cfg m rk = .ok ct ∧ encMessage cfg (m ++ more) rk = .ok ct' ∧
      ct.take m.length = ct'.take m.length

/-- 44_message_codec.md R165: the round trip of a message. -/
def Obligations.MessageRoundTrip : Prop :=
  ∀ (cfg : Cfg) (m : List Byte) (rk : List Bits), cfg.WF → RoundKeysShaped cfg rk →
    ∃ ct, encMessage cfg m rk = .ok ct ∧ decMessage cfg ct rk = .ok (m, false)

/-- 44_message_codec.md R165, second paragraph: re-encrypting a decryption gives the ciphertext back if and only if it is not
empty and its decryption ends in a well-formed padding. -/
def Obligations.ReencryptionNeedsPadding : Prop :=
  ∀ (cfg : Cfg) (x : List Byte) (rk : List Bits), cfg.WF → RoundKeysShaped cfg rk → x.length % 8 = 0 →
    ∃ pp, cryptBlocks cfg rk .decrypt (x.length / 8) x = .ok pp ∧ decMessage cfg x rk = .ok (strip pp) ∧
      (encMessage cfg (strip pp).1 rk = .ok x ↔
        ∃ (m : List Byte) (v : Nat), 1 ≤ v ∧ v ≤ 8 ∧ pp = m ++ List.replicate v (BitVec.ofNat 8 v))

/-- 44_message_codec.md R165, for the commands: ENCM of a message that leaves room for its padding, then its output copied
to INMEM with `MLEN <- OLEN`, then DECM, gives the message back with `BADPAD = 0` and `ERR = 0`. -/
def Obligations.CommandRoundTrip : Prop :=
  ∀ s t u : State, s.cfg.WF → RoundKeysShaped s.cfg s.rk → s.halt = false → s.keyValid = true →
    s.mlen.toNat + 8 ≤ s.cfg.msgCap → exec .encm s = .next t →
    u.cfg = t.cfg → u.rk = t.rk → u.keyValid = t.keyValid → u.halt = t.halt → u.mlen = t.olen →
    (∀ k < t.olen.toNat, u.byteAt .inmem k = t.byteAt .outmem k) →
      ∃ v, exec .decm u = .next v ∧ OutputIs v (s.memRead .inmem 0 s.mlen.toNat) ∧ v.olen = s.mlen ∧ v.badpad = false
end

