-- ==== Sys2Proof/Laws/BitVector.lean ====
section
/-!
SUPPORT. What the bit-vector utilities (40_bitvector.md) do, said once: each function's total form on arguments of the right
widths, and its failure on others.
-/

namespace Sys2Proof.Machine

/-! ### Failing computations -/

@[simp] theorem except_ok_bind {ε α β : Type} (x : α) (f : α → Except ε β) : (Except.ok x >>= f) = f x := rfl

@[simp] theorem except_error_bind {ε α β : Type} (e : ε) (f : α → Except ε β) : (Except.error e >>= f) = .error e := rfl

@[simp] theorem except_ok_map {ε α β : Type} (x : α) (f : α → β) : (Except.ok x : Except ε α).map f = .ok (f x) := rfl

@[simp] theorem except_error_map {ε α β : Type} (e : ε) (f : α → β) : (Except.error e : Except ε α).map f = .error e := rfl

theorem except_bind_eq_ok {ε α β : Type} {x : Except ε α} {f : α → Except ε β} {b : β} :
    (x >>= f) = .ok b ↔ ∃ a, x = .ok a ∧ f a = .ok b := by
  cases x <;> simp

theorem element_eq_ok {α : Type} {xs : List α} {i : Nat} {x : α} : element xs i = .ok x ↔ xs[i]? = some x := by
  unfold element
  cases xs[i]? <;> simp

theorem element_of_lt {α : Type} {xs : List α} {i : Nat} (h : i < xs.length) : element xs i = .ok xs[i] := by
  simp [element_eq_ok, h]

/-! ### permute -/

theorem permute_ok {v : Bits} : ∀ {table : List Nat}, (∀ x ∈ table, x < v.length) →
    permute v table = .ok (table.map fun x => v.getD x false)
  | [], _ => rfl
  | t :: ts, h => by
    have ht : t < v.length := h t (by simp)
    simp [permute, permute_ok (table := ts) fun x hx => h x (by simp [hx]), ht]

theorem permute_error {v : Bits} : ∀ {table : List Nat}, (∃ x ∈ table, v.length ≤ x) →
    permute v table = .error .indexOutOfRange
  | [], h => by simp at h
  | t :: ts, h => by
    by_cases ht : t < v.length
    · have : ∃ x ∈ ts, v.length ≤ x := by
        obtain ⟨x, hx, hle⟩ := h
        rcases List.mem_cons.1 hx with rfl | hx
        · omega
        · exact ⟨x, hx, hle⟩
      simp [permute, permute_error this, ht]
    · simp [permute, List.getElem?_eq_none (Nat.le_of_not_lt ht)]

theorem permute_length {v : Bits} : ∀ {table : List Nat} {o : Bits}, permute v table = .ok o → o.length = table.length
  | [], o, h => by cases h; rfl
  | t :: ts, o, h => by
    cases ht : v[t]? with
    | none => simp [permute, ht] at h
    | some b =>
      cases hr : permute v ts with
      | error e => simp [permute, ht, hr] at h
      | ok o' =>
        simp [permute, ht, hr] at h
        subst h
        simp [permute_length hr]

/-! ### split and merge -/

@[simp] theorem slices_length {α : Type} (w : Nat) : ∀ (k : Nat) (v : List α), (slices w k v).length = k
  | 0, _ => rfl
  | k + 1, v => by simp [slices, slices_length w k]

theorem slices_getElem? {α : Type} (w : Nat) : ∀ (k : Nat) (v : List α) (j : Nat), j < k →
    (slices w k v)[j]? = some ((v.drop (j * w)).take w)
  | 0, _, _, h => by omega
  | k + 1, v, 0, _ => by simp [slices]
  | k + 1, v, j + 1, h => by
    simp [slices, slices_getElem? w k _ j (by omega), Nat.add_mul, Nat.add_comm]

theorem slices_flatten {α : Type} (w : Nat) : ∀ (k : Nat) (v : List α), v.length = k * w → (slices w k v).flatten = v
  | 0, v, h => by simp at h; simp [slices, h]
  | k + 1, v, h => by
    rw [slices, List.flatten_cons, slices_flatten w k (v.drop w) (by rw [List.length_drop, h, Nat.add_mul]; omega),
      List.take_append_drop]

theorem slices_width {α : Type} (w : Nat) : ∀ (k : Nat) (v : List α), v.length = k * w → ∀ x ∈ slices w k v, x.length = w
  | 0, v, _, x, hx => by simp [slices] at hx
  | k + 1, v, h, x, hx => by
    rw [Nat.add_mul, Nat.one_mul] at h
    rcases List.mem_cons.1 hx with rfl | hx
    · simp; omega
    · exact slices_width w k (v.drop w) (by rw [List.length_drop]; omega) x hx

theorem slices_of_flatten {α : Type} (w : Nat) : ∀ (parts : List (List α)), (∀ x ∈ parts, x.length = w) →
    slices w parts.length parts.flatten = parts
  | [], _ => rfl
  | p :: ps, h => by
    have hp : p.length = w := h p (by simp)
    have ih := slices_of_flatten w ps fun x hx => h x (by simp [hx])
    simp [slices, ← hp]
    rw [hp]
    exact ih

theorem flatten_length_of_width {α : Type} (w : Nat) : ∀ (parts : List (List α)), (∀ x ∈ parts, x.length = w) →
    parts.flatten.length = parts.length * w
  | [], _ => by simp
  | p :: ps, h => by
    have hp : p.length = w := h p (by simp)
    simp only [List.flatten_cons, List.length_append, hp, List.length_cons,
      flatten_length_of_width w ps fun x hx => h x (by simp [hx])]
    rw [Nat.add_mul]; omega

theorem split_ok {v : Bits} {k w : Nat} (hk : k ≠ 0) (h : v.length = k * w) : split v k = .ok (slices w k v) := by
  have hw : v.length / k = w := by rw [h]; exact Nat.mul_div_cancel_left w (Nat.pos_of_ne_zero hk)
  simp [split, hk, h]

theorem split_error {v : Bits} {k : Nat} (h : k = 0 ∨ v.length % k ≠ 0) : split v k = .error .invalidWidth := by
  simp [split, h]

theorem halves_ok {v : Bits} {w : Nat} (h : v.length = 2 * w) : halves v = .ok (v.take w, v.drop w) := by
  have hd : (v.drop w).take w = v.drop w := by
    apply List.take_of_length_le
    rw [List.length_drop]; omega
  simp [halves, split_ok (by decide) h, slices, hd]

/-! ### xor -/

theorem xorBits_ok {a b : Bits} (h : a.length = b.length) : xorBits a b = .ok (List.zipWith Bool.xor a b) := by
  simp [xorBits, h]

theorem xorBits_length {a b o : Bits} (h : xorBits a b = .ok o) : o.length = a.length ∧ a.length = b.length := by
  unfold xorBits at h
  split at h
  · rename_i hl
    cases h
    simp [hl]
  · cases h

theorem zipWith_xor_comm : ∀ a b : Bits, List.zipWith Bool.xor a b = List.zipWith Bool.xor b a
  | [], [] => rfl
  | [], _ :: _ => rfl
  | _ :: _, [] => rfl
  | x :: a, y :: b => by simp [zipWith_xor_comm a b, Bool.xor_comm]

theorem zipWith_xor_cancel : ∀ a b : Bits, a.length = b.length →
    List.zipWith Bool.xor (List.zipWith Bool.xor a b) b = a
  | [], [], _ => rfl
  | x :: a, y :: b, h => by
    simp only [List.length_cons, Nat.add_right_cancel_iff] at h
    simp [zipWith_xor_cancel a b h]

theorem zipWith_xor_self : ∀ a : Bits, List.zipWith Bool.xor a a = zeros a.length
  | [] => rfl
  | x :: a => by simp [zeros, List.replicate_succ]

/-! ### cyclic shift -/

@[simp] theorem cyclicShiftLeft_length (v : Bits) (n : Nat) : (cyclicShiftLeft v n).length = v.length := by
  simp [cyclicShiftLeft]; omega

/-! ### values -/

theorem valOf_append (a b : Bits) : valOf (a ++ b) = valOf a * 2 ^ b.length + valOf b := by
  induction b using List.reverseRecOn with
  | nil => simp [valOf]
  | append_singleton b x ih =>
    rw [← List.append_assoc]
    have step : ∀ c : Bits, valOf (c ++ [x]) = 2 * valOf c + x.toNat := by intro c; simp [valOf]
    rw [step, step, ih]
    simp [Nat.pow_succ]
    ring

@[simp] theorem valOf_nil : valOf [] = 0 := rfl

theorem valOf_cons (x : Bool) (v : Bits) : valOf (x :: v) = x.toNat * 2 ^ v.length + valOf v := by
  rw [← List.singleton_append, valOf_append]
  simp [valOf]

theorem valOf_lt : ∀ v : Bits, valOf v < 2 ^ v.length
  | [] => by simp
  | x :: v => by
    have := valOf_lt v
    rw [valOf_cons, List.length_cons, Nat.pow_succ]
    cases x <;> simp <;> omega

@[simp] theorem bitsOf_length (x n : Nat) : (bitsOf x n).length = n := by simp [bitsOf]

theorem bitsOf_succ (x n : Nat) : bitsOf x (n + 1) = x.testBit n :: bitsOf x n := by
  simp [bitsOf, List.range_succ_eq_map, Function.comp_def]
  intro a _
  congr 1
  omega

theorem valOf_bitsOf (x : Nat) : ∀ n : Nat, valOf (bitsOf x n) = x % 2 ^ n
  | 0 => by simp [bitsOf, Nat.mod_one]
  | n + 1 => by
    rw [bitsOf_succ, valOf_cons, bitsOf_length, valOf_bitsOf x n, Nat.testBit_eq_decide_div_mod_eq]
    have h2 := Nat.mod_mul (x := x) (a := 2 ^ n) (b := 2)
    rw [Nat.pow_succ, h2]
    rcases Nat.mod_two_eq_zero_or_one (x / 2 ^ n) with h | h <;> simp [h]
    omega

theorem bits_eq_of_valOf_eq : ∀ {v w : Bits}, v.length = w.length → valOf v = valOf w → v = w
  | [], [], _, _ => rfl
  | x :: v, y :: w, hl, hv => by
    simp only [List.length_cons, Nat.add_right_cancel_iff] at hl
    rw [valOf_cons, valOf_cons, hl] at hv
    have h1 := valOf_lt v
    have h2 := valOf_lt w
    rw [hl] at h1
    have hxy : x = y := by
      cases x <;> cases y <;> simp at hv ⊢ <;> omega
    subst hxy
    rw [bits_eq_of_valOf_eq hl (by omega)]

theorem bitsOf_valOf (v : Bits) : bitsOf (valOf v) v.length = v := by
  apply bits_eq_of_valOf_eq (by simp)
  rw [valOf_bitsOf, Nat.mod_eq_of_lt (valOf_lt v)]

/-! ### bytes -/

@[simp] theorem byteToBits_length (b : Byte) : (byteToBits b).length = 8 := rfl

theorem byteToBits_eq_bitsOf (b : Byte) : byteToBits b = bitsOf b.toNat 8 := rfl

theorem ofNat_valOf_byteToBits (b : Byte) : BitVec.ofNat 8 (valOf (byteToBits b)) = b := by
  rw [byteToBits_eq_bitsOf, valOf_bitsOf]
  apply BitVec.eq_of_toNat_eq
  simp [b.isLt]

theorem byteToBits_ofNat_valOf {v : Bits} (h : v.length = 8) : byteToBits (BitVec.ofNat 8 (valOf v)) = v := by
  have hv := valOf_lt v
  rw [h] at hv
  rw [byteToBits_eq_bitsOf, BitVec.toNat_ofNat, Nat.mod_eq_of_lt hv, ← h, bitsOf_valOf]

@[simp] theorem bytesToBits_nil : bytesToBits [] = [] := rfl

@[simp] theorem bytesToBits_cons (b : Byte) (bs : List Byte) : bytesToBits (b :: bs) = byteToBits b ++ bytesToBits bs := rfl

@[simp] theorem bytesToBits_length : ∀ bytes : List Byte, (bytesToBits bytes).length = 8 * bytes.length
  | [] => rfl
  | b :: bs => by simp [bytesToBits_length bs]; omega

theorem bytesToBits_injective : ∀ {x y : List Byte}, bytesToBits x = bytesToBits y → x = y
  | [], [], _ => rfl
  | [], y :: ys, h => by
    have := congrArg List.length h
    simp at this
    omega
  | x :: xs, [], h => by
    have := congrArg List.length h
    simp at this
  | x :: xs, y :: ys, h => by
    rw [bytesToBits_cons, bytesToBits_cons] at h
    obtain ⟨h1, h2⟩ := List.append_inj h (by simp)
    rw [bytesToBits_injective h2, ← ofNat_valOf_byteToBits x, h1, ofNat_valOf_byteToBits]

/-- The total form of `bits_to_bytes` on whole bytes. -/
theorem bitsToBytes_ok : ∀ {n : Nat} {v : Bits}, v.length = 8 * n →
    ∃ bytes, bitsToBytes v = .ok bytes ∧ bytes.length = n ∧ bytesToBits bytes = v := by
  intro n v h
  have hd : v.length / 8 = n := by omega
  refine ⟨(slices 8 n v).map fun x => BitVec.ofNat 8 (valOf x), ?_, by simp, ?_⟩
  · rw [bitsToBytes, hd, if_pos (by omega)]
  · have hw := slices_width 8 n v (by omega)
    rw [bytesToBits, List.flatMap_map]
    have : (slices 8 n v).flatMap (fun x => byteToBits (BitVec.ofNat 8 (valOf x))) = (slices 8 n v).flatMap id :=
      List.flatMap_congr fun x hx => byteToBits_ofNat_valOf (hw x hx)
    rw [this, List.flatMap_id, slices_flatten 8 n v (by omega)]

end Sys2Proof.Machine
end

