-- ==== Sys2Proof/Laws/Cipher.lean ====
section
/-!
SUPPORT. Under `WF(CFG)` no function of the cipher fails on arguments of its widths, and each result has its width
(00_scope.md R8, 40_bitvector.md R90, 42_round_function.md R127, 43_block_iterator.md R141).
-/

namespace Sys2Proof.Machine

/-! ### Key schedule -/

theorem scheduleRounds_ok {cfg : Cfg} (wf : cfg.WF) : ∀ (n r : Nat) (c d : Bits), r + n = cfg.rounds →
    c.length = cfg.halfCd → d.length = cfg.halfCd →
    ∃ rk, scheduleRounds cfg r n c d = .ok rk ∧ rk.length = n ∧ ∀ k ∈ rk, k.length = cfg.rkBits
  | 0, _, _, _, _, _, _ => ⟨[], rfl, rfl, by simp⟩
  | n + 1, r, c, d, hr, hc, hd => by
    have wf' := wf
    obtain ⟨_, _, _, _, _, ⟨_, _, heven, _, _⟩, ⟨hl, hp⟩, ⟨hs, _⟩, _⟩ := wf
    have hshift : r < cfg.shift.length := by omega
    obtain ⟨rest, hrest, hlen, hwid⟩ := scheduleRounds_ok wf' n (r + 1) (cyclicShiftLeft c cfg.shift[r])
      (cyclicShiftLeft d cfg.shift[r]) (by omega) (by simpa using hc) (by simpa using hd)
    have hcd : ∀ x ∈ cfg.pc2, x < (merge [cyclicShiftLeft c cfg.shift[r], cyclicShiftLeft d cfg.shift[r]]).length := by
      intro x hx
      have := hp x hx
      simp [merge, hc, hd, Cfg.halfCd]
      omega
    obtain ⟨k, hk⟩ : ∃ k, permute (merge [cyclicShiftLeft c cfg.shift[r], cyclicShiftLeft d cfg.shift[r]]) cfg.pc2 = .ok k :=
      ⟨_, permute_ok hcd⟩
    refine ⟨k :: rest, by simp only [scheduleRounds, element_of_lt hshift, except_ok_bind, hk, hrest], by simp [hlen], ?_⟩
    intro x hx
    rcases List.mem_cons.1 hx with rfl | hx
    · rw [permute_length hk, hl]
    · exact hwid x hx

theorem deriveBits_ok {cfg : Cfg} (wf : cfg.WF) {key : Bits} (hk : key.length = cfg.keyBits) :
    ∃ rk, deriveBits cfg key = .ok rk ∧ RoundKeysShaped cfg rk := by
  have wf' := wf
  obtain ⟨_, _, _, _, _, ⟨_, _, heven, hl, hp⟩, _⟩ := wf
  have hcd : cfg.cdBits = 2 * cfg.halfCd := by simp [Cfg.halfCd]; omega
  obtain ⟨rk, h, hlen, hwid⟩ := scheduleRounds_ok wf' cfg.rounds 0
    ((cfg.pc1.map fun x => key.getD x false).take cfg.halfCd) ((cfg.pc1.map fun x => key.getD x false).drop cfg.halfCd)
    (by omega) (by simp [hl]; omega) (by simp [hl]; omega)
  refine ⟨rk, ?_, hlen, hwid⟩
  rw [deriveBits, permute_ok (by simpa [hk] using hp), except_ok_bind, halves_ok (by simp [hl]; omega), except_ok_bind]
  exact h

/-! ### Round function -/

theorem subRow_lt (cfg : Cfg) (x : Bits) : subRow cfg x < 4 := by
  have h1 := Bool.toNat_lt (x.getD 0 false)
  have h2 := Bool.toNat_lt (x.getD (cfg.g - 1) false)
  unfold subRow
  omega

theorem subColumn_lt (cfg : Cfg) (x : Bits) : subColumn cfg x < 2 ^ (cfg.g - 2) := by
  have := valOf_lt ((x.drop 1).take (cfg.g - 2))
  have hl : ((x.drop 1).take (cfg.g - 2)).length ≤ cfg.g - 2 := by simp
  exact Nat.lt_of_lt_of_le this (Nat.pow_le_pow_right (by decide) hl)

/-- `SUB` finds its entry: it is below 16 and its 4 bits are the result. -/
theorem sub_ok {cfg : Cfg} (wf : cfg.WF) {g : Nat} {x : Bits} (hg : g < 8) (hx : x.length = cfg.g) :
    ∃ table row entry, cfg.sbox[g]? = some table ∧ table[subRow cfg x]? = some row ∧
      row[subColumn cfg x]? = some entry ∧ entry < 16 ∧ sub cfg g x = .ok (bitsOf entry 4) := by
  obtain ⟨_, _, _, _, ⟨hl, ht⟩, _⟩ := wf
  simp only [Config.nGroups] at hl
  have h1 : g < cfg.sbox.length := by omega
  obtain ⟨h4, hrows⟩ := ht cfg.sbox[g] (List.getElem_mem h1)
  have h2 : subRow cfg x < cfg.sbox[g].length := by rw [h4]; exact subRow_lt cfg x
  obtain ⟨hcols, hent⟩ := hrows _ (List.getElem_mem h2)
  have h3 : subColumn cfg x < cfg.sbox[g][subRow cfg x].length := by rw [hcols]; exact subColumn_lt cfg x
  refine ⟨_, _, _, List.getElem?_eq_getElem h1, List.getElem?_eq_getElem h2, List.getElem?_eq_getElem h3,
    hent _ (List.getElem_mem h3), ?_⟩
  simp [sub, hx, element_of_lt h1, element_of_lt h2, element_of_lt h3]

theorem subGroups_ok {cfg : Cfg} (wf : cfg.WF) : ∀ (xs : List Bits) (g : Nat), g + xs.length ≤ 8 →
    (∀ x ∈ xs, x.length = cfg.g) →
    ∃ ys, subGroups cfg g xs = .ok ys ∧ ys.length = xs.length ∧ (∀ y ∈ ys, y.length = 4) ∧
      ∀ (j : Nat) (x : Bits), xs[j]? = some x → ∃ y, ys[j]? = some y ∧ sub cfg (g + j) x = .ok y
  | [], _, _, _ => ⟨[], rfl, rfl, by simp, by simp⟩
  | x :: xs, g, hg, hx => by
    simp only [List.length_cons] at hg
    obtain ⟨_, _, entry, _, _, _, _, hy⟩ := sub_ok wf (by omega : g < 8) (hx x (by simp))
    obtain ⟨ys, hys, hlen, hwid, hall⟩ := subGroups_ok wf xs (g + 1) (by omega) fun z hz => hx z (by simp [hz])
    refine ⟨bitsOf entry 4 :: ys, by simp only [subGroups, hy, hys, except_ok_bind], by simp [hlen], ?_, ?_⟩
    · intro z hz
      rcases List.mem_cons.1 hz with rfl | hz
      · simp
      · exact hwid z hz
    · intro j z hz
      cases j with
      | zero => simp only [List.getElem?_cons_zero, Option.some.injEq] at hz; subst hz; exact ⟨_, rfl, hy⟩
      | succ j =>
        obtain ⟨y, h1, h2⟩ := hall j z (by simpa using hz)
        refine ⟨y, by simpa using h1, ?_⟩
        rw [← h2]; congr 1; omega

/-- The steps of `F`, each with its width. -/
theorem feistelF_steps {cfg : Cfg} (wf : cfg.WF) {rh k : Bits} (hr : rh.length = 32) (hk : k.length = cfg.rkBits) :
    ∃ e x ys o, permute rh cfg.e = .ok e ∧ xorBits e k = .ok x ∧ x.length = 8 * cfg.g ∧
      subGroups cfg 0 (slices cfg.g 8 x) = .ok ys ∧ ys.length = 8 ∧ (∀ y ∈ ys, y.length = 4) ∧
      permute (merge ys) cfg.p = .ok o ∧ o.length = 32 ∧ feistelF cfg rh k = .ok o := by
  have wf' := wf
  obtain ⟨_, _, ⟨hel, hee⟩, ⟨hpl, hpe, _⟩, _⟩ := wf
  simp only [Config.halfBits, Config.nGroups, Config.sOut] at hee hpl hpe
  have he := permute_ok (v := rh) (table := cfg.e) (by simpa [hr] using hee)
  have hlen : (cfg.e.map fun x => rh.getD x false).length = k.length := by simp [hel, hk]
  have hx := xorBits_ok hlen
  generalize hX : List.zipWith Bool.xor (cfg.e.map fun x => rh.getD x false) k = x at hx
  have hxl : x.length = 8 * cfg.g := by
    rw [(xorBits_length hx).1, hlen, hk, Cfg.rkBits]
  have hs := split_ok (v := x) (k := 8) (w := cfg.g) (by decide) hxl
  obtain ⟨ys, hys, hyl, hyw, _⟩ := subGroups_ok wf' (slices cfg.g 8 x) 0 (by simp) (slices_width _ _ _ hxl)
  rw [slices_length] at hyl
  have hml : (merge ys).length = 32 := by rw [merge, flatten_length_of_width 4 ys hyw, hyl]
  have hp := permute_ok (v := merge ys) (table := cfg.p) (by rw [hml]; simpa using hpe)
  refine ⟨_, x, ys, _, he, hx, hxl, hys, hyl, hyw, hp, by simp [hpl], ?_⟩
  rw [feistelF, he, except_ok_bind, hx, except_ok_bind, Config.nGroups, hs, except_ok_bind, hys, except_ok_bind, hp]

theorem round_ok {cfg : Cfg} (wf : cfg.WF) {lh rh k : Bits} (hl : lh.length = 32) (hr : rh.length = 32)
    (hk : k.length = cfg.rkBits) : ∃ f b, feistelF cfg rh k = .ok f ∧ f.length = 32 ∧ xorBits lh f = .ok b ∧
      b.length = 32 ∧ round cfg lh rh k = .ok (rh, b) := by
  obtain ⟨_, _, _, f, _, _, _, _, _, _, _, hfl, hf⟩ := feistelF_steps wf hr hk
  have hb := xorBits_ok (a := lh) (b := f) (by omega)
  refine ⟨f, _, hf, hfl, hb, by rw [(xorBits_length hb).1, hl], ?_⟩
  rw [round, hf, except_ok_bind, hb, except_ok_bind]

/-! ### Block iterator -/

theorem kidx_lt {cfg : Cfg} {act : Action} {i : Nat} (h : i < cfg.rounds) : kidx cfg act i < cfg.rounds := by
  cases act <;> simp [kidx] <;> omega

theorem runRounds_ok {cfg : Cfg} (wf : cfg.WF) {rk : List Bits} (hrk : RoundKeysShaped cfg rk) (act : Action) :
    ∀ (n rc : Nat) (lr : Bits × Bits), rc + n ≤ cfg.rounds → lr.1.length = 32 → lr.2.length = 32 →
      ∃ lr', runRounds cfg rk act rc n lr = .ok lr' ∧ lr'.1.length = 32 ∧ lr'.2.length = 32
  | 0, _, lr, _, h1, h2 => ⟨lr, rfl, h1, h2⟩
  | n + 1, rc, lr, hr, h1, h2 => by
    have hidx : kidx cfg act rc < rk.length := by rw [hrk.1]; exact kidx_lt (by omega)
    obtain ⟨_, b, _, _, _, hb, hround⟩ := round_ok wf h1 h2 (hrk.2 _ (List.getElem_mem hidx))
    obtain ⟨lr', h, h3, h4⟩ := runRounds_ok wf hrk act n (rc + 1) (lr.2, b) (by omega) h2 hb
    exact ⟨lr', by simp only [runRounds, element_of_lt hidx, except_ok_bind, hround, h], h3, h4⟩

theorem initialPermutation_ok {cfg : Cfg} (wf : cfg.WF) {v : Bits} (hv : v.length = 64) :
    ∃ w, initialPermutation cfg v = .ok w ∧ w.length = 64 := by
  obtain ⟨_, _, _, _, _, _, _, _, h9, _⟩ := wf
  cases hp : cfg.ipfp with
  | none => exact ⟨v, by simp [initialPermutation, hp], hv⟩
  | some t =>
    obtain ⟨hl, _, hb, _⟩ := h9 t hp
    exact ⟨_, by simp only [initialPermutation, hp]; exact permute_ok (by simpa [hv] using hb), by simp [hl]⟩

theorem finalPermutation_ok {cfg : Cfg} (wf : cfg.WF) {v : Bits} (hv : v.length = 64) :
    ∃ w, finalPermutation cfg v = .ok w ∧ w.length = 64 := by
  obtain ⟨_, _, _, _, _, _, _, _, h9, _⟩ := wf
  cases hp : cfg.ipfp with
  | none => exact ⟨v, by simp [finalPermutation, hp], hv⟩
  | some t =>
    obtain ⟨_, hl, _, hb, _⟩ := h9 t hp
    exact ⟨_, by simp only [finalPermutation, hp]; exact permute_ok (by simpa [hv] using hb), by simp [hl]⟩

/-- The steps of `crypt_block`, each with its width. -/
theorem cryptBlock_steps {cfg : Cfg} (wf : cfg.WF) {rk : List Bits} (hrk : RoundKeysShaped cfg rk) (act : Action)
    {block : List Byte} (hb : block.length = 8) :
    ∃ v lr w out, initialPermutation cfg (bytesToBits block) = .ok v ∧ v.length = 64 ∧
      runRounds cfg rk act 0 cfg.rounds (v.take 32, v.drop 32) = .ok lr ∧ lr.1.length = 32 ∧ lr.2.length = 32 ∧
      finalPermutation cfg (lr.2 ++ lr.1) = .ok w ∧ w.length = 64 ∧ bitsToBytes w = .ok out ∧ out.length = 8 ∧
      bytesToBits out = w ∧ cryptBlock cfg block rk act = .ok out := by
  obtain ⟨v, hv, hvl⟩ := initialPermutation_ok wf (v := bytesToBits block) (by simp [hb])
  obtain ⟨lr, hlr, h1, h2⟩ := runRounds_ok wf hrk act cfg.rounds 0 (v.take 32, v.drop 32) (by omega)
    (by simp [hvl]) (by simp [hvl])
  obtain ⟨w, hw, hwl⟩ := finalPermutation_ok wf (v := lr.2 ++ lr.1) (by simp [h1, h2])
  obtain ⟨out, ho, hol, hob⟩ := bitsToBytes_ok (n := 8) (v := w) (by omega)
  refine ⟨v, lr, w, out, hv, hvl, hlr, h1, h2, hw, hwl, ho, hol, hob, ?_⟩
  have hm : merge [lr.2, lr.1] = lr.2 ++ lr.1 := by simp [merge]
  simp only [cryptBlock, Config.blockBytes, hb, ne_eq, not_true_eq_false, if_false, hv, except_ok_bind,
    halves_ok (w := 32) (by omega : v.length = 2 * 32), hlr, hm, hw, ho]

theorem cryptBlock_ok {cfg : Cfg} (wf : cfg.WF) {rk : List Bits} (hrk : RoundKeysShaped cfg rk) (act : Action)
    {block : List Byte} (hb : block.length = 8) : ∃ out, cryptBlock cfg block rk act = .ok out ∧ out.length = 8 := by
  obtain ⟨_, _, _, out, _, _, _, _, _, _, _, _, hl, _, h⟩ := cryptBlock_steps wf hrk act hb
  exact ⟨out, h, hl⟩

/-! ### Message codec -/

theorem pad_length (m : List Byte) : (pad m).length = m.length + 8 - m.length % 8 := by
  simp [pad]; omega

theorem pad_blocks (m : List Byte) : (pad m).length = 8 * (m.length / 8 + 1) := by
  rw [pad_length]; omega

theorem cryptBlocks_ok {cfg : Cfg} (wf : cfg.WF) {rk : List Bits} (hrk : RoundKeysShaped cfg rk) (act : Action) :
    ∀ (n : Nat) (x : List Byte), x.length = 8 * n → ∃ y, cryptBlocks cfg rk act n x = .ok y ∧ y.length = 8 * n
  | 0, _, _ => ⟨[], rfl, rfl⟩
  | n + 1, x, hx => by
    obtain ⟨b, hb, hbl⟩ := cryptBlock_ok wf hrk act (block := x.take 8) (by simp; omega)
    obtain ⟨y, hy, hyl⟩ := cryptBlocks_ok wf hrk act n (x.drop 8) (by simp; omega)
    exact ⟨b ++ y, by simp only [cryptBlocks, Config.blockBytes, hb, hy, except_ok_bind], by simp [hbl, hyl]; omega⟩

theorem encMessage_ok {cfg : Cfg} (wf : cfg.WF) {rk : List Bits} (hrk : RoundKeysShaped cfg rk) (m : List Byte) :
    ∃ ct, encMessage cfg m rk = .ok ct ∧ ct.length = m.length + 8 - m.length % 8 := by
  have hp := pad_blocks m
  obtain ⟨ct, h, hl⟩ := cryptBlocks_ok wf hrk .encrypt (m.length / 8 + 1) (pad m) hp
  refine ⟨ct, ?_, by rw [hl, ← hp, pad_length]⟩
  rw [encMessage, Config.blockBytes, show (pad m).length / 8 = m.length / 8 + 1 by omega, h]

theorem strip_length_le (pp : List Byte) : (strip pp).1.length ≤ pp.length := by
  unfold strip
  split
  · simp
  · split <;> simp

theorem decMessage_ok {cfg : Cfg} (wf : cfg.WF) {rk : List Bits} (hrk : RoundKeysShaped cfg rk) {ct : List Byte}
    (h8 : ct.length % 8 = 0) : ∃ pt bad, decMessage cfg ct rk = .ok (pt, bad) ∧ pt.length ≤ ct.length := by
  obtain ⟨pp, h, hl⟩ := cryptBlocks_ok wf hrk .decrypt (ct.length / 8) ct (by omega)
  refine ⟨(strip pp).1, (strip pp).2, by simp only [decMessage, Config.blockBytes, h8, ne_eq, not_true_eq_false, if_false, h, except_ok_bind], ?_⟩
  have := strip_length_le pp
  omega

end Sys2Proof.Machine
end

