-- ==== Sys2Proof/Laws/State.lean ====
section
/-!
SUPPORT. Beside the state: one lemma per field per update, so that no later proof unfolds a record update.
-/

namespace Sys2Proof.Machine

variable (s : State)

/-! ### storeOutput -/

@[simp] theorem State.storeOutput_cfg (o : List Byte) : (s.storeOutput o).cfg = s.cfg := rfl
@[simp] theorem State.storeOutput_l (o : List Byte) : (s.storeOutput o).l = s.l := rfl
@[simp] theorem State.storeOutput_r (o : List Byte) : (s.storeOutput o).r = s.r := rfl
@[simp] theorem State.storeOutput_c (o : List Byte) : (s.storeOutput o).c = s.c := rfl
@[simp] theorem State.storeOutput_d (o : List Byte) : (s.storeOutput o).d = s.d := rfl
@[simp] theorem State.storeOutput_rc (o : List Byte) : (s.storeOutput o).rc = s.rc := rfl
@[simp] theorem State.storeOutput_bi (o : List Byte) : (s.storeOutput o).bi = s.bi := rfl
@[simp] theorem State.storeOutput_key (o : List Byte) : (s.storeOutput o).key = s.key := rfl
@[simp] theorem State.storeOutput_rk (o : List Byte) : (s.storeOutput o).rk = s.rk := rfl
@[simp] theorem State.storeOutput_keyValid (o : List Byte) : (s.storeOutput o).keyValid = s.keyValid := rfl
@[simp] theorem State.storeOutput_halt (o : List Byte) : (s.storeOutput o).halt = s.halt := rfl
@[simp] theorem State.storeOutput_badpad (o : List Byte) : (s.storeOutput o).badpad = s.badpad := rfl
@[simp] theorem State.storeOutput_busy (o : List Byte) : (s.storeOutput o).busy = s.busy := rfl
@[simp] theorem State.storeOutput_err (o : List Byte) : (s.storeOutput o).err = s.err := rfl
@[simp] theorem State.storeOutput_esticky (o : List Byte) : (s.storeOutput o).esticky = s.esticky := rfl
@[simp] theorem State.storeOutput_klen (o : List Byte) : (s.storeOutput o).klen = s.klen := rfl
@[simp] theorem State.storeOutput_mlen (o : List Byte) : (s.storeOutput o).mlen = s.mlen := rfl
@[simp] theorem State.storeOutput_olen (o : List Byte) : (s.storeOutput o).olen = BitVec.ofNat 32 o.length := rfl
@[simp] theorem State.storeOutput_keymem (o : List Byte) : (s.storeOutput o).keymem = s.keymem := rfl
@[simp] theorem State.storeOutput_inmem (o : List Byte) : (s.storeOutput o).inmem = s.inmem := rfl
@[simp] theorem State.storeOutput_outmem (o : List Byte) : (s.storeOutput o).outmem = Memory.keepBelow (Memory.storeBytes s.outmem 0 o) o.length := rfl
@[simp] theorem State.storeOutput_host (o : List Byte) : (s.storeOutput o).host = s.host := rfl
@[simp] theorem State.storeOutput_replies (o : List Byte) : (s.storeOutput o).replies = s.replies := rfl
@[simp] theorem State.storeOutput_draws (o : List Byte) : (s.storeOutput o).draws = s.draws + 1 := rfl
@[simp] theorem State.storeOutput_bufEpoch (o : List Byte) : (s.storeOutput o).bufEpoch = s.bufEpoch := rfl
@[simp] theorem State.storeOutput_outEpoch (o : List Byte) : (s.storeOutput o).outEpoch = s.draws := rfl

/-! ### unspecifySchedule -/

@[simp] theorem State.unspecifySchedule_cfg : (s.unspecifySchedule).cfg = s.cfg := rfl
@[simp] theorem State.unspecifySchedule_l : (s.unspecifySchedule).l = s.l := rfl
@[simp] theorem State.unspecifySchedule_r : (s.unspecifySchedule).r = s.r := rfl
@[simp] theorem State.unspecifySchedule_c : (s.unspecifySchedule).c = freeBits .c s.draws s.cfg.halfCd := rfl
@[simp] theorem State.unspecifySchedule_d : (s.unspecifySchedule).d = freeBits .d s.draws s.cfg.halfCd := rfl
@[simp] theorem State.unspecifySchedule_rc : (s.unspecifySchedule).rc = freeCounter .rc s.draws s.cfg.rounds := rfl
@[simp] theorem State.unspecifySchedule_bi : (s.unspecifySchedule).bi = s.bi := rfl
@[simp] theorem State.unspecifySchedule_key : (s.unspecifySchedule).key = s.key := rfl
@[simp] theorem State.unspecifySchedule_rk : (s.unspecifySchedule).rk = s.rk := rfl
@[simp] theorem State.unspecifySchedule_keyValid : (s.unspecifySchedule).keyValid = s.keyValid := rfl
@[simp] theorem State.unspecifySchedule_halt : (s.unspecifySchedule).halt = s.halt := rfl
@[simp] theorem State.unspecifySchedule_badpad : (s.unspecifySchedule).badpad = s.badpad := rfl
@[simp] theorem State.unspecifySchedule_busy : (s.unspecifySchedule).busy = s.busy := rfl
@[simp] theorem State.unspecifySchedule_err : (s.unspecifySchedule).err = s.err := rfl
@[simp] theorem State.unspecifySchedule_esticky : (s.unspecifySchedule).esticky = s.esticky := rfl
@[simp] theorem State.unspecifySchedule_klen : (s.unspecifySchedule).klen = s.klen := rfl
@[simp] theorem State.unspecifySchedule_mlen : (s.unspecifySchedule).mlen = s.mlen := rfl
@[simp] theorem State.unspecifySchedule_olen : (s.unspecifySchedule).olen = s.olen := rfl
@[simp] theorem State.unspecifySchedule_keymem : (s.unspecifySchedule).keymem = s.keymem := rfl
@[simp] theorem State.unspecifySchedule_inmem : (s.unspecifySchedule).inmem = s.inmem := rfl
@[simp] theorem State.unspecifySchedule_outmem : (s.unspecifySchedule).outmem = s.outmem := rfl
@[simp] theorem State.unspecifySchedule_host : (s.unspecifySchedule).host = s.host := rfl
@[simp] theorem State.unspecifySchedule_replies : (s.unspecifySchedule).replies = s.replies := rfl
@[simp] theorem State.unspecifySchedule_draws : (s.unspecifySchedule).draws = s.draws + 1 := rfl
@[simp] theorem State.unspecifySchedule_bufEpoch : (s.unspecifySchedule).bufEpoch = s.bufEpoch := rfl
@[simp] theorem State.unspecifySchedule_outEpoch : (s.unspecifySchedule).outEpoch = s.outEpoch := rfl

/-! ### unspecifyBlock -/

@[simp] theorem State.unspecifyBlock_cfg : (s.unspecifyBlock).cfg = s.cfg := rfl
@[simp] theorem State.unspecifyBlock_l : (s.unspecifyBlock).l = freeBits .l s.draws 32 := rfl
@[simp] theorem State.unspecifyBlock_r : (s.unspecifyBlock).r = freeBits .r s.draws 32 := rfl
@[simp] theorem State.unspecifyBlock_c : (s.unspecifyBlock).c = s.c := rfl
@[simp] theorem State.unspecifyBlock_d : (s.unspecifyBlock).d = s.d := rfl
@[simp] theorem State.unspecifyBlock_rc : (s.unspecifyBlock).rc = freeCounter .rc s.draws s.cfg.rounds := rfl
@[simp] theorem State.unspecifyBlock_bi : (s.unspecifyBlock).bi = s.bi := rfl
@[simp] theorem State.unspecifyBlock_key : (s.unspecifyBlock).key = s.key := rfl
@[simp] theorem State.unspecifyBlock_rk : (s.unspecifyBlock).rk = s.rk := rfl
@[simp] theorem State.unspecifyBlock_keyValid : (s.unspecifyBlock).keyValid = s.keyValid := rfl
@[simp] theorem State.unspecifyBlock_halt : (s.unspecifyBlock).halt = s.halt := rfl
@[simp] theorem State.unspecifyBlock_badpad : (s.unspecifyBlock).badpad = s.badpad := rfl
@[simp] theorem State.unspecifyBlock_busy : (s.unspecifyBlock).busy = s.busy := rfl
@[simp] theorem State.unspecifyBlock_err : (s.unspecifyBlock).err = s.err := rfl
@[simp] theorem State.unspecifyBlock_esticky : (s.unspecifyBlock).esticky = s.esticky := rfl
@[simp] theorem State.unspecifyBlock_klen : (s.unspecifyBlock).klen = s.klen := rfl
@[simp] theorem State.unspecifyBlock_mlen : (s.unspecifyBlock).mlen = s.mlen := rfl
@[simp] theorem State.unspecifyBlock_olen : (s.unspecifyBlock).olen = s.olen := rfl
@[simp] theorem State.unspecifyBlock_keymem : (s.unspecifyBlock).keymem = s.keymem := rfl
@[simp] theorem State.unspecifyBlock_inmem : (s.unspecifyBlock).inmem = s.inmem := rfl
@[simp] theorem State.unspecifyBlock_outmem : (s.unspecifyBlock).outmem = s.outmem := rfl
@[simp] theorem State.unspecifyBlock_host : (s.unspecifyBlock).host = s.host := rfl
@[simp] theorem State.unspecifyBlock_replies : (s.unspecifyBlock).replies = s.replies := rfl
@[simp] theorem State.unspecifyBlock_draws : (s.unspecifyBlock).draws = s.draws + 1 := rfl
@[simp] theorem State.unspecifyBlock_bufEpoch : (s.unspecifyBlock).bufEpoch = s.bufEpoch := rfl
@[simp] theorem State.unspecifyBlock_outEpoch : (s.unspecifyBlock).outEpoch = s.outEpoch := rfl

/-! ### unspecifyMessage -/

@[simp] theorem State.unspecifyMessage_cfg : (s.unspecifyMessage).cfg = s.cfg := rfl
@[simp] theorem State.unspecifyMessage_l : (s.unspecifyMessage).l = freeBits .l s.draws 32 := rfl
@[simp] theorem State.unspecifyMessage_r : (s.unspecifyMessage).r = freeBits .r s.draws 32 := rfl
@[simp] theorem State.unspecifyMessage_c : (s.unspecifyMessage).c = s.c := rfl
@[simp] theorem State.unspecifyMessage_d : (s.unspecifyMessage).d = s.d := rfl
@[simp] theorem State.unspecifyMessage_rc : (s.unspecifyMessage).rc = freeCounter .rc s.draws s.cfg.rounds := rfl
@[simp] theorem State.unspecifyMessage_bi : (s.unspecifyMessage).bi = freeCounter .bi s.draws (s.cfg.msgCap / 8 + 1) := rfl
@[simp] theorem State.unspecifyMessage_key : (s.unspecifyMessage).key = s.key := rfl
@[simp] theorem State.unspecifyMessage_rk : (s.unspecifyMessage).rk = s.rk := rfl
@[simp] theorem State.unspecifyMessage_keyValid : (s.unspecifyMessage).keyValid = s.keyValid := rfl
@[simp] theorem State.unspecifyMessage_halt : (s.unspecifyMessage).halt = s.halt := rfl
@[simp] theorem State.unspecifyMessage_badpad : (s.unspecifyMessage).badpad = s.badpad := rfl
@[simp] theorem State.unspecifyMessage_busy : (s.unspecifyMessage).busy = s.busy := rfl
@[simp] theorem State.unspecifyMessage_err : (s.unspecifyMessage).err = s.err := rfl
@[simp] theorem State.unspecifyMessage_esticky : (s.unspecifyMessage).esticky = s.esticky := rfl
@[simp] theorem State.unspecifyMessage_klen : (s.unspecifyMessage).klen = s.klen := rfl
@[simp] theorem State.unspecifyMessage_mlen : (s.unspecifyMessage).mlen = s.mlen := rfl
@[simp] theorem State.unspecifyMessage_olen : (s.unspecifyMessage).olen = s.olen := rfl
@[simp] theorem State.unspecifyMessage_keymem : (s.unspecifyMessage).keymem = s.keymem := rfl
@[simp] theorem State.unspecifyMessage_inmem : (s.unspecifyMessage).inmem = s.inmem := rfl
@[simp] theorem State.unspecifyMessage_outmem : (s.unspecifyMessage).outmem = s.outmem := rfl
@[simp] theorem State.unspecifyMessage_host : (s.unspecifyMessage).host = s.host := rfl
@[simp] theorem State.unspecifyMessage_replies : (s.unspecifyMessage).replies = s.replies := rfl
@[simp] theorem State.unspecifyMessage_draws : (s.unspecifyMessage).draws = s.draws + 1 := rfl
@[simp] theorem State.unspecifyMessage_bufEpoch : (s.unspecifyMessage).bufEpoch = s.bufEpoch := rfl
@[simp] theorem State.unspecifyMessage_outEpoch : (s.unspecifyMessage).outEpoch = s.outEpoch := rfl

/-! ### discardInstance -/

@[simp] theorem State.discardInstance_cfg : (s.discardInstance).cfg = s.cfg := rfl
@[simp] theorem State.discardInstance_l : (s.discardInstance).l = s.l := rfl
@[simp] theorem State.discardInstance_r : (s.discardInstance).r = s.r := rfl
@[simp] theorem State.discardInstance_c : (s.discardInstance).c = s.c := rfl
@[simp] theorem State.discardInstance_d : (s.discardInstance).d = s.d := rfl
@[simp] theorem State.discardInstance_rc : (s.discardInstance).rc = s.rc := rfl
@[simp] theorem State.discardInstance_bi : (s.discardInstance).bi = s.bi := rfl
@[simp] theorem State.discardInstance_key : (s.discardInstance).key = zeros s.cfg.keyBits := rfl
@[simp] theorem State.discardInstance_rk : (s.discardInstance).rk = List.replicate s.cfg.rounds (zeros s.cfg.rkBits) := rfl
@[simp] theorem State.discardInstance_keyValid : (s.discardInstance).keyValid = false := rfl
@[simp] theorem State.discardInstance_halt : (s.discardInstance).halt = s.halt := rfl
@[simp] theorem State.discardInstance_badpad : (s.discardInstance).badpad = s.badpad := rfl
@[simp] theorem State.discardInstance_busy : (s.discardInstance).busy = s.busy := rfl
@[simp] theorem State.discardInstance_err : (s.discardInstance).err = s.err := rfl
@[simp] theorem State.discardInstance_esticky : (s.discardInstance).esticky = s.esticky := rfl
@[simp] theorem State.discardInstance_klen : (s.discardInstance).klen = s.klen := rfl
@[simp] theorem State.discardInstance_mlen : (s.discardInstance).mlen = s.mlen := rfl
@[simp] theorem State.discardInstance_olen : (s.discardInstance).olen = s.olen := rfl
@[simp] theorem State.discardInstance_keymem : (s.discardInstance).keymem = s.keymem := rfl
@[simp] theorem State.discardInstance_inmem : (s.discardInstance).inmem = s.inmem := rfl
@[simp] theorem State.discardInstance_outmem : (s.discardInstance).outmem = s.outmem := rfl
@[simp] theorem State.discardInstance_host : (s.discardInstance).host = s.host := rfl
@[simp] theorem State.discardInstance_replies : (s.discardInstance).replies = s.replies := rfl
@[simp] theorem State.discardInstance_draws : (s.discardInstance).draws = s.draws := rfl
@[simp] theorem State.discardInstance_bufEpoch : (s.discardInstance).bufEpoch = s.bufEpoch := rfl
@[simp] theorem State.discardInstance_outEpoch : (s.discardInstance).outEpoch = s.outEpoch := rfl

/-! ### installInstance -/

@[simp] theorem State.installInstance_cfg (k : Bits) (ks : List Bits) : (s.installInstance k ks).cfg = s.cfg := rfl
@[simp] theorem State.installInstance_l (k : Bits) (ks : List Bits) : (s.installInstance k ks).l = s.l := rfl
@[simp] theorem State.installInstance_r (k : Bits) (ks : List Bits) : (s.installInstance k ks).r = s.r := rfl
@[simp] theorem State.installInstance_c (k : Bits) (ks : List Bits) : (s.installInstance k ks).c = s.c := rfl
@[simp] theorem State.installInstance_d (k : Bits) (ks : List Bits) : (s.installInstance k ks).d = s.d := rfl
@[simp] theorem State.installInstance_rc (k : Bits) (ks : List Bits) : (s.installInstance k ks).rc = s.rc := rfl
@[simp] theorem State.installInstance_bi (k : Bits) (ks : List Bits) : (s.installInstance k ks).bi = s.bi := rfl
@[simp] theorem State.installInstance_key (k : Bits) (ks : List Bits) : (s.installInstance k ks).key = k := rfl
@[simp] theorem State.installInstance_rk (k : Bits) (ks : List Bits) : (s.installInstance k ks).rk = ks := rfl
@[simp] theorem State.installInstance_keyValid (k : Bits) (ks : List Bits) : (s.installInstance k ks).keyValid = true := rfl
@[simp] theorem State.installInstance_halt (k : Bits) (ks : List Bits) : (s.installInstance k ks).halt = s.halt := rfl
@[simp] theorem State.installInstance_badpad (k : Bits) (ks : List Bits) : (s.installInstance k ks).badpad = s.badpad := rfl
@[simp] theorem State.installInstance_busy (k : Bits) (ks : List Bits) : (s.installInstance k ks).busy = s.busy := rfl
@[simp] theorem State.installInstance_err (k : Bits) (ks : List Bits) : (s.installInstance k ks).err = s.err := rfl
@[simp] theorem State.installInstance_esticky (k : Bits) (ks : List Bits) : (s.installInstance k ks).esticky = s.esticky := rfl
@[simp] theorem State.installInstance_klen (k : Bits) (ks : List Bits) : (s.installInstance k ks).klen = s.klen := rfl
@[simp] theorem State.installInstance_mlen (k : Bits) (ks : List Bits) : (s.installInstance k ks).mlen = s.mlen := rfl
@[simp] theorem State.installInstance_olen (k : Bits) (ks : List Bits) : (s.installInstance k ks).olen = s.olen := rfl
@[simp] theorem State.installInstance_keymem (k : Bits) (ks : List Bits) : (s.installInstance k ks).keymem = s.keymem := rfl
@[simp] theorem State.installInstance_inmem (k : Bits) (ks : List Bits) : (s.installInstance k ks).inmem = s.inmem := rfl
@[simp] theorem State.installInstance_outmem (k : Bits) (ks : List Bits) : (s.installInstance k ks).outmem = s.outmem := rfl
@[simp] theorem State.installInstance_host (k : Bits) (ks : List Bits) : (s.installInstance k ks).host = s.host := rfl
@[simp] theorem State.installInstance_replies (k : Bits) (ks : List Bits) : (s.installInstance k ks).replies = s.replies := rfl
@[simp] theorem State.installInstance_draws (k : Bits) (ks : List Bits) : (s.installInstance k ks).draws = s.draws := rfl
@[simp] theorem State.installInstance_bufEpoch (k : Bits) (ks : List Bits) : (s.installInstance k ks).bufEpoch = s.bufEpoch := rfl
@[simp] theorem State.installInstance_outEpoch (k : Bits) (ks : List Bits) : (s.installInstance k ks).outEpoch = s.outEpoch := rfl

/-! ### complete -/

@[simp] theorem State.complete_cfg : (s.complete).cfg = s.cfg := rfl
@[simp] theorem State.complete_l : (s.complete).l = s.l := rfl
@[simp] theorem State.complete_r : (s.complete).r = s.r := rfl
@[simp] theorem State.complete_c : (s.complete).c = s.c := rfl
@[simp] theorem State.complete_d : (s.complete).d = s.d := rfl
@[simp] theorem State.complete_rc : (s.complete).rc = s.rc := rfl
@[simp] theorem State.complete_bi : (s.complete).bi = s.bi := rfl
@[simp] theorem State.complete_key : (s.complete).key = s.key := rfl
@[simp] theorem State.complete_rk : (s.complete).rk = s.rk := rfl
@[simp] theorem State.complete_keyValid : (s.complete).keyValid = s.keyValid := rfl
@[simp] theorem State.complete_halt : (s.complete).halt = s.halt := rfl
@[simp] theorem State.complete_badpad : (s.complete).badpad = s.badpad := rfl
@[simp] theorem State.complete_busy : (s.complete).busy = s.busy := rfl
@[simp] theorem State.complete_err : (s.complete).err = 0#4 := rfl
@[simp] theorem State.complete_esticky : (s.complete).esticky = s.esticky := rfl
@[simp] theorem State.complete_klen : (s.complete).klen = s.klen := rfl
@[simp] theorem State.complete_mlen : (s.complete).mlen = s.mlen := rfl
@[simp] theorem State.complete_olen : (s.complete).olen = s.olen := rfl
@[simp] theorem State.complete_keymem : (s.complete).keymem = s.keymem := rfl
@[simp] theorem State.complete_inmem : (s.complete).inmem = s.inmem := rfl
@[simp] theorem State.complete_outmem : (s.complete).outmem = s.outmem := rfl
@[simp] theorem State.complete_host : (s.complete).host = s.host := rfl
@[simp] theorem State.complete_replies : (s.complete).replies = s.replies := rfl
@[simp] theorem State.complete_draws : (s.complete).draws = s.draws := rfl
@[simp] theorem State.complete_bufEpoch : (s.complete).bufEpoch = s.bufEpoch := rfl
@[simp] theorem State.complete_outEpoch : (s.complete).outEpoch = s.outEpoch := rfl

/-! ### raise -/

@[simp] theorem State.raise_cfg (f : FaultCode) : (s.raise f).cfg = s.cfg := rfl
@[simp] theorem State.raise_l (f : FaultCode) : (s.raise f).l = s.l := rfl
@[simp] theorem State.raise_r (f : FaultCode) : (s.raise f).r = s.r := rfl
@[simp] theorem State.raise_c (f : FaultCode) : (s.raise f).c = s.c := rfl
@[simp] theorem State.raise_d (f : FaultCode) : (s.raise f).d = s.d := rfl
@[simp] theorem State.raise_rc (f : FaultCode) : (s.raise f).rc = s.rc := rfl
@[simp] theorem State.raise_bi (f : FaultCode) : (s.raise f).bi = s.bi := rfl
@[simp] theorem State.raise_key (f : FaultCode) : (s.raise f).key = s.key := rfl
@[simp] theorem State.raise_rk (f : FaultCode) : (s.raise f).rk = s.rk := rfl
@[simp] theorem State.raise_keyValid (f : FaultCode) : (s.raise f).keyValid = s.keyValid := rfl
@[simp] theorem State.raise_halt (f : FaultCode) : (s.raise f).halt = (s.halt || f.isPanic) := rfl
@[simp] theorem State.raise_badpad (f : FaultCode) : (s.raise f).badpad = s.badpad := rfl
@[simp] theorem State.raise_busy (f : FaultCode) : (s.raise f).busy = false := rfl
@[simp] theorem State.raise_err (f : FaultCode) : (s.raise f).err = f.errValue := rfl
@[simp] theorem State.raise_esticky (f : FaultCode) : (s.raise f).esticky = s.esticky ||| f.stickyBit := rfl
@[simp] theorem State.raise_klen (f : FaultCode) : (s.raise f).klen = s.klen := rfl
@[simp] theorem State.raise_mlen (f : FaultCode) : (s.raise f).mlen = s.mlen := rfl
@[simp] theorem State.raise_olen (f : FaultCode) : (s.raise f).olen = s.olen := rfl
@[simp] theorem State.raise_keymem (f : FaultCode) : (s.raise f).keymem = s.keymem := rfl
@[simp] theorem State.raise_inmem (f : FaultCode) : (s.raise f).inmem = s.inmem := rfl
@[simp] theorem State.raise_outmem (f : FaultCode) : (s.raise f).outmem = s.outmem := rfl
@[simp] theorem State.raise_host (f : FaultCode) : (s.raise f).host = s.host := rfl
@[simp] theorem State.raise_replies (f : FaultCode) : (s.raise f).replies = s.replies := rfl
@[simp] theorem State.raise_draws (f : FaultCode) : (s.raise f).draws = s.draws := rfl
@[simp] theorem State.raise_bufEpoch (f : FaultCode) : (s.raise f).bufEpoch = s.bufEpoch := rfl
@[simp] theorem State.raise_outEpoch (f : FaultCode) : (s.raise f).outEpoch = s.outEpoch := rfl

/-! ### beginCommand -/

@[simp] theorem State.beginCommand_cfg : (s.beginCommand).cfg = s.cfg := rfl
@[simp] theorem State.beginCommand_l : (s.beginCommand).l = s.l := rfl
@[simp] theorem State.beginCommand_r : (s.beginCommand).r = s.r := rfl
@[simp] theorem State.beginCommand_c : (s.beginCommand).c = s.c := rfl
@[simp] theorem State.beginCommand_d : (s.beginCommand).d = s.d := rfl
@[simp] theorem State.beginCommand_rc : (s.beginCommand).rc = s.rc := rfl
@[simp] theorem State.beginCommand_bi : (s.beginCommand).bi = s.bi := rfl
@[simp] theorem State.beginCommand_key : (s.beginCommand).key = s.key := rfl
@[simp] theorem State.beginCommand_rk : (s.beginCommand).rk = s.rk := rfl
@[simp] theorem State.beginCommand_keyValid : (s.beginCommand).keyValid = s.keyValid := rfl
@[simp] theorem State.beginCommand_halt : (s.beginCommand).halt = s.halt := rfl
@[simp] theorem State.beginCommand_badpad : (s.beginCommand).badpad = s.badpad := rfl
@[simp] theorem State.beginCommand_busy : (s.beginCommand).busy = true := rfl
@[simp] theorem State.beginCommand_err : (s.beginCommand).err = s.err := rfl
@[simp] theorem State.beginCommand_esticky : (s.beginCommand).esticky = s.esticky := rfl
@[simp] theorem State.beginCommand_klen : (s.beginCommand).klen = s.klen := rfl
@[simp] theorem State.beginCommand_mlen : (s.beginCommand).mlen = s.mlen := rfl
@[simp] theorem State.beginCommand_olen : (s.beginCommand).olen = s.olen := rfl
@[simp] theorem State.beginCommand_keymem : (s.beginCommand).keymem = s.keymem := rfl
@[simp] theorem State.beginCommand_inmem : (s.beginCommand).inmem = s.inmem := rfl
@[simp] theorem State.beginCommand_outmem : (s.beginCommand).outmem = s.outmem := rfl
@[simp] theorem State.beginCommand_host : (s.beginCommand).host = s.host := rfl
@[simp] theorem State.beginCommand_replies : (s.beginCommand).replies = s.replies := rfl
@[simp] theorem State.beginCommand_draws : (s.beginCommand).draws = s.draws := rfl
@[simp] theorem State.beginCommand_bufEpoch : (s.beginCommand).bufEpoch = s.bufEpoch := rfl
@[simp] theorem State.beginCommand_outEpoch : (s.beginCommand).outEpoch = s.outEpoch := rfl

/-! ### endCommand -/

@[simp] theorem State.endCommand_cfg : (s.endCommand).cfg = s.cfg := rfl
@[simp] theorem State.endCommand_l : (s.endCommand).l = s.l := rfl
@[simp] theorem State.endCommand_r : (s.endCommand).r = s.r := rfl
@[simp] theorem State.endCommand_c : (s.endCommand).c = s.c := rfl
@[simp] theorem State.endCommand_d : (s.endCommand).d = s.d := rfl
@[simp] theorem State.endCommand_rc : (s.endCommand).rc = s.rc := rfl
@[simp] theorem State.endCommand_bi : (s.endCommand).bi = s.bi := rfl
@[simp] theorem State.endCommand_key : (s.endCommand).key = s.key := rfl
@[simp] theorem State.endCommand_rk : (s.endCommand).rk = s.rk := rfl
@[simp] theorem State.endCommand_keyValid : (s.endCommand).keyValid = s.keyValid := rfl
@[simp] theorem State.endCommand_halt : (s.endCommand).halt = s.halt := rfl
@[simp] theorem State.endCommand_badpad : (s.endCommand).badpad = s.badpad := rfl
@[simp] theorem State.endCommand_busy : (s.endCommand).busy = false := rfl
@[simp] theorem State.endCommand_err : (s.endCommand).err = s.err := rfl
@[simp] theorem State.endCommand_esticky : (s.endCommand).esticky = s.esticky := rfl
@[simp] theorem State.endCommand_klen : (s.endCommand).klen = s.klen := rfl
@[simp] theorem State.endCommand_mlen : (s.endCommand).mlen = s.mlen := rfl
@[simp] theorem State.endCommand_olen : (s.endCommand).olen = s.olen := rfl
@[simp] theorem State.endCommand_keymem : (s.endCommand).keymem = s.keymem := rfl
@[simp] theorem State.endCommand_inmem : (s.endCommand).inmem = s.inmem := rfl
@[simp] theorem State.endCommand_outmem : (s.endCommand).outmem = s.outmem := rfl
@[simp] theorem State.endCommand_host : (s.endCommand).host = s.host := rfl
@[simp] theorem State.endCommand_replies : (s.endCommand).replies = s.replies := rfl
@[simp] theorem State.endCommand_draws : (s.endCommand).draws = s.draws := rfl
@[simp] theorem State.endCommand_bufEpoch : (s.endCommand).bufEpoch = s.bufEpoch := rfl
@[simp] theorem State.endCommand_outEpoch : (s.endCommand).outEpoch = s.outEpoch := rfl

/-! ### reply -/

@[simp] theorem State.reply_cfg (x : Reply) : (s.reply x).cfg = s.cfg := rfl
@[simp] theorem State.reply_l (x : Reply) : (s.reply x).l = s.l := rfl
@[simp] theorem State.reply_r (x : Reply) : (s.reply x).r = s.r := rfl
@[simp] theorem State.reply_c (x : Reply) : (s.reply x).c = s.c := rfl
@[simp] theorem State.reply_d (x : Reply) : (s.reply x).d = s.d := rfl
@[simp] theorem State.reply_rc (x : Reply) : (s.reply x).rc = s.rc := rfl
@[simp] theorem State.reply_bi (x : Reply) : (s.reply x).bi = s.bi := rfl
@[simp] theorem State.reply_key (x : Reply) : (s.reply x).key = s.key := rfl
@[simp] theorem State.reply_rk (x : Reply) : (s.reply x).rk = s.rk := rfl
@[simp] theorem State.reply_keyValid (x : Reply) : (s.reply x).keyValid = s.keyValid := rfl
@[simp] theorem State.reply_halt (x : Reply) : (s.reply x).halt = s.halt := rfl
@[simp] theorem State.reply_badpad (x : Reply) : (s.reply x).badpad = s.badpad := rfl
@[simp] theorem State.reply_busy (x : Reply) : (s.reply x).busy = s.busy := rfl
@[simp] theorem State.reply_err (x : Reply) : (s.reply x).err = s.err := rfl
@[simp] theorem State.reply_esticky (x : Reply) : (s.reply x).esticky = s.esticky := rfl
@[simp] theorem State.reply_klen (x : Reply) : (s.reply x).klen = s.klen := rfl
@[simp] theorem State.reply_mlen (x : Reply) : (s.reply x).mlen = s.mlen := rfl
@[simp] theorem State.reply_olen (x : Reply) : (s.reply x).olen = s.olen := rfl
@[simp] theorem State.reply_keymem (x : Reply) : (s.reply x).keymem = s.keymem := rfl
@[simp] theorem State.reply_inmem (x : Reply) : (s.reply x).inmem = s.inmem := rfl
@[simp] theorem State.reply_outmem (x : Reply) : (s.reply x).outmem = s.outmem := rfl
@[simp] theorem State.reply_host (x : Reply) : (s.reply x).host = s.host := rfl
@[simp] theorem State.reply_replies (x : Reply) : (s.reply x).replies = x :: s.replies := rfl
@[simp] theorem State.reply_draws (x : Reply) : (s.reply x).draws = s.draws := rfl
@[simp] theorem State.reply_bufEpoch (x : Reply) : (s.reply x).bufEpoch = s.bufEpoch := rfl
@[simp] theorem State.reply_outEpoch (x : Reply) : (s.reply x).outEpoch = s.outEpoch := rfl

/-! ### advanceDraws -/

@[simp] theorem State.advanceDraws_cfg : (s.advanceDraws).cfg = s.cfg := rfl
@[simp] theorem State.advanceDraws_l : (s.advanceDraws).l = s.l := rfl
@[simp] theorem State.advanceDraws_r : (s.advanceDraws).r = s.r := rfl
@[simp] theorem State.advanceDraws_c : (s.advanceDraws).c = s.c := rfl
@[simp] theorem State.advanceDraws_d : (s.advanceDraws).d = s.d := rfl
@[simp] theorem State.advanceDraws_rc : (s.advanceDraws).rc = s.rc := rfl
@[simp] theorem State.advanceDraws_bi : (s.advanceDraws).bi = s.bi := rfl
@[simp] theorem State.advanceDraws_key : (s.advanceDraws).key = s.key := rfl
@[simp] theorem State.advanceDraws_rk : (s.advanceDraws).rk = s.rk := rfl
@[simp] theorem State.advanceDraws_keyValid : (s.advanceDraws).keyValid = s.keyValid := rfl
@[simp] theorem State.advanceDraws_halt : (s.advanceDraws).halt = s.halt := rfl
@[simp] theorem State.advanceDraws_badpad : (s.advanceDraws).badpad = s.badpad := rfl
@[simp] theorem State.advanceDraws_busy : (s.advanceDraws).busy = s.busy := rfl
@[simp] theorem State.advanceDraws_err : (s.advanceDraws).err = s.err := rfl
@[simp] theorem State.advanceDraws_esticky : (s.advanceDraws).esticky = s.esticky := rfl
@[simp] theorem State.advanceDraws_klen : (s.advanceDraws).klen = s.klen := rfl
@[simp] theorem State.advanceDraws_mlen : (s.advanceDraws).mlen = s.mlen := rfl
@[simp] theorem State.advanceDraws_olen : (s.advanceDraws).olen = s.olen := rfl
@[simp] theorem State.advanceDraws_keymem : (s.advanceDraws).keymem = s.keymem := rfl
@[simp] theorem State.advanceDraws_inmem : (s.advanceDraws).inmem = s.inmem := rfl
@[simp] theorem State.advanceDraws_outmem : (s.advanceDraws).outmem = s.outmem := rfl
@[simp] theorem State.advanceDraws_host : (s.advanceDraws).host = s.host := rfl
@[simp] theorem State.advanceDraws_replies : (s.advanceDraws).replies = s.replies := rfl
@[simp] theorem State.advanceDraws_draws : (s.advanceDraws).draws = s.draws + 1 := rfl
@[simp] theorem State.advanceDraws_bufEpoch : (s.advanceDraws).bufEpoch = s.bufEpoch := rfl
@[simp] theorem State.advanceDraws_outEpoch : (s.advanceDraws).outEpoch = s.outEpoch := rfl

/-! ### popHost -/

@[simp] theorem State.popHost_cfg : (s.popHost).cfg = s.cfg := rfl
@[simp] theorem State.popHost_l : (s.popHost).l = s.l := rfl
@[simp] theorem State.popHost_r : (s.popHost).r = s.r := rfl
@[simp] theorem State.popHost_c : (s.popHost).c = s.c := rfl
@[simp] theorem State.popHost_d : (s.popHost).d = s.d := rfl
@[simp] theorem State.popHost_rc : (s.popHost).rc = s.rc := rfl
@[simp] theorem State.popHost_bi : (s.popHost).bi = s.bi := rfl
@[simp] theorem State.popHost_key : (s.popHost).key = s.key := rfl
@[simp] theorem State.popHost_rk : (s.popHost).rk = s.rk := rfl
@[simp] theorem State.popHost_keyValid : (s.popHost).keyValid = s.keyValid := rfl
@[simp] theorem State.popHost_halt : (s.popHost).halt = s.halt := rfl
@[simp] theorem State.popHost_badpad : (s.popHost).badpad = s.badpad := rfl
@[simp] theorem State.popHost_busy : (s.popHost).busy = s.busy := rfl
@[simp] theorem State.popHost_err : (s.popHost).err = s.err := rfl
@[simp] theorem State.popHost_esticky : (s.popHost).esticky = s.esticky := rfl
@[simp] theorem State.popHost_klen : (s.popHost).klen = s.klen := rfl
@[simp] theorem State.popHost_mlen : (s.popHost).mlen = s.mlen := rfl
@[simp] theorem State.popHost_olen : (s.popHost).olen = s.olen := rfl
@[simp] theorem State.popHost_keymem : (s.popHost).keymem = s.keymem := rfl
@[simp] theorem State.popHost_inmem : (s.popHost).inmem = s.inmem := rfl
@[simp] theorem State.popHost_outmem : (s.popHost).outmem = s.outmem := rfl
@[simp] theorem State.popHost_host : (s.popHost).host = s.host.tail := rfl
@[simp] theorem State.popHost_replies : (s.popHost).replies = s.replies := rfl
@[simp] theorem State.popHost_draws : (s.popHost).draws = s.draws := rfl
@[simp] theorem State.popHost_bufEpoch : (s.popHost).bufEpoch = s.bufEpoch := rfl
@[simp] theorem State.popHost_outEpoch : (s.popHost).outEpoch = s.outEpoch := rfl

/-! ### resetAll -/

@[simp] theorem State.resetAll_cfg : (s.resetAll).cfg = s.cfg := rfl
@[simp] theorem State.resetAll_l : (s.resetAll).l = freeBits .l s.draws 32 := rfl
@[simp] theorem State.resetAll_r : (s.resetAll).r = freeBits .r s.draws 32 := rfl
@[simp] theorem State.resetAll_c : (s.resetAll).c = freeBits .c s.draws s.cfg.halfCd := rfl
@[simp] theorem State.resetAll_d : (s.resetAll).d = freeBits .d s.draws s.cfg.halfCd := rfl
@[simp] theorem State.resetAll_rc : (s.resetAll).rc = freeCounter .rc s.draws s.cfg.rounds := rfl
@[simp] theorem State.resetAll_bi : (s.resetAll).bi = freeCounter .bi s.draws (s.cfg.msgCap / 8 + 1) := rfl
@[simp] theorem State.resetAll_key : (s.resetAll).key = zeros s.cfg.keyBits := rfl
@[simp] theorem State.resetAll_rk : (s.resetAll).rk = List.replicate s.cfg.rounds (zeros s.cfg.rkBits) := rfl
@[simp] theorem State.resetAll_keyValid : (s.resetAll).keyValid = false := rfl
@[simp] theorem State.resetAll_halt : (s.resetAll).halt = false := rfl
@[simp] theorem State.resetAll_badpad : (s.resetAll).badpad = false := rfl
@[simp] theorem State.resetAll_busy : (s.resetAll).busy = false := rfl
@[simp] theorem State.resetAll_err : (s.resetAll).err = 0#4 := rfl
@[simp] theorem State.resetAll_esticky : (s.resetAll).esticky = 0#8 := rfl
@[simp] theorem State.resetAll_klen : (s.resetAll).klen = 0#32 := rfl
@[simp] theorem State.resetAll_mlen : (s.resetAll).mlen = 0#32 := rfl
@[simp] theorem State.resetAll_olen : (s.resetAll).olen = 0#32 := rfl
@[simp] theorem State.resetAll_keymem : (s.resetAll).keymem = [] := rfl
@[simp] theorem State.resetAll_inmem : (s.resetAll).inmem = [] := rfl
@[simp] theorem State.resetAll_outmem : (s.resetAll).outmem = [] := rfl
@[simp] theorem State.resetAll_host : (s.resetAll).host = s.host := rfl
@[simp] theorem State.resetAll_replies : (s.resetAll).replies = s.replies := rfl
@[simp] theorem State.resetAll_draws : (s.resetAll).draws = s.draws + 1 := rfl
@[simp] theorem State.resetAll_bufEpoch : (s.resetAll).bufEpoch = s.draws := rfl
@[simp] theorem State.resetAll_outEpoch : (s.resetAll).outEpoch = s.draws := rfl

/-! ### setByte: only the buffer written changes -/

@[simp] theorem State.setByte_cfg (sp : Space) (a : Nat) (b : Byte) : (s.setByte sp a b).cfg = s.cfg := by cases sp <;> rfl
@[simp] theorem State.setByte_l (sp : Space) (a : Nat) (b : Byte) : (s.setByte sp a b).l = s.l := by cases sp <;> rfl
@[simp] theorem State.setByte_r (sp : Space) (a : Nat) (b : Byte) : (s.setByte sp a b).r = s.r := by cases sp <;> rfl
@[simp] theorem State.setByte_c (sp : Space) (a : Nat) (b : Byte) : (s.setByte sp a b).c = s.c := by cases sp <;> rfl
@[simp] theorem State.setByte_d (sp : Space) (a : Nat) (b : Byte) : (s.setByte sp a b).d = s.d := by cases sp <;> rfl
@[simp] theorem State.setByte_rc (sp : Space) (a : Nat) (b : Byte) : (s.setByte sp a b).rc = s.rc := by cases sp <;> rfl
@[simp] theorem State.setByte_bi (sp : Space) (a : Nat) (b : Byte) : (s.setByte sp a b).bi = s.bi := by cases sp <;> rfl
@[simp] theorem State.setByte_key (sp : Space) (a : Nat) (b : Byte) : (s.setByte sp a b).key = s.key := by cases sp <;> rfl
@[simp] theorem State.setByte_rk (sp : Space) (a : Nat) (b : Byte) : (s.setByte sp a b).rk = s.rk := by cases sp <;> rfl
@[simp] theorem State.setByte_keyValid (sp : Space) (a : Nat) (b : Byte) : (s.setByte sp a b).keyValid = s.keyValid := by cases sp <;> rfl
@[simp] theorem State.setByte_halt (sp : Space) (a : Nat) (b : Byte) : (s.setByte sp a b).halt = s.halt := by cases sp <;> rfl
@[simp] theorem State.setByte_badpad (sp : Space) (a : Nat) (b : Byte) : (s.setByte sp a b).badpad = s.badpad := by cases sp <;> rfl
@[simp] theorem State.setByte_busy (sp : Space) (a : Nat) (b : Byte) : (s.setByte sp a b).busy = s.busy := by cases sp <;> rfl
@[simp] theorem State.setByte_err (sp : Space) (a : Nat) (b : Byte) : (s.setByte sp a b).err = s.err := by cases sp <;> rfl
@[simp] theorem State.setByte_esticky (sp : Space) (a : Nat) (b : Byte) : (s.setByte sp a b).esticky = s.esticky := by cases sp <;> rfl
@[simp] theorem State.setByte_klen (sp : Space) (a : Nat) (b : Byte) : (s.setByte sp a b).klen = s.klen := by cases sp <;> rfl
@[simp] theorem State.setByte_mlen (sp : Space) (a : Nat) (b : Byte) : (s.setByte sp a b).mlen = s.mlen := by cases sp <;> rfl
@[simp] theorem State.setByte_olen (sp : Space) (a : Nat) (b : Byte) : (s.setByte sp a b).olen = s.olen := by cases sp <;> rfl
@[simp] theorem State.setByte_host (sp : Space) (a : Nat) (b : Byte) : (s.setByte sp a b).host = s.host := by cases sp <;> rfl
@[simp] theorem State.setByte_replies (sp : Space) (a : Nat) (b : Byte) : (s.setByte sp a b).replies = s.replies := by cases sp <;> rfl
@[simp] theorem State.setByte_draws (sp : Space) (a : Nat) (b : Byte) : (s.setByte sp a b).draws = s.draws := by cases sp <;> rfl
@[simp] theorem State.setByte_bufEpoch (sp : Space) (a : Nat) (b : Byte) : (s.setByte sp a b).bufEpoch = s.bufEpoch := by cases sp <;> rfl
@[simp] theorem State.setByte_outEpoch (sp : Space) (a : Nat) (b : Byte) : (s.setByte sp a b).outEpoch = s.outEpoch := by cases sp <;> rfl

end Sys2Proof.Machine
end

