-- ==== Sys2Proof/Laws/Memory.lean ====
section
/-!
SUPPORT. The buffers: what a read gives after a write, and that every operation keeps the canonical form and the bounds
(20_memory.md R50, R52, R53).
-/

namespace Sys2Proof.Machine

/-! ### Reading after writing -/

theorem get?_set : ∀ (m : Memory) (a : Nat) (b : Byte) (x : Nat),
    Memory.get? (Memory.set m a b) x = if x = a then some b else Memory.get? m x
  | [], a, b, x => by simp [Memory.set, Memory.get?, eq_comm]
  | (k, y) :: m, a, b, x => by
    unfold Memory.set
    split
    · rename_i hlt
      by_cases hx : x = a
      · subst hx; simp [Memory.get?]
      · simp [Memory.get?, hx, Ne.symm hx]
    · split
      · rename_i h1 h2
        subst h2
        by_cases hx : x = a
        · subst hx; simp [Memory.get?]
        · simp [Memory.get?, hx, Ne.symm hx]
      · rename_i h1 h2
        simp only [Memory.get?, get?_set m a b x]
        by_cases hk : k = x
        · subst hk; simp [Ne.symm h2]
        · simp [hk]

theorem get?_storeBytes : ∀ (bs : List Byte) (m : Memory) (a x : Nat),
    Memory.get? (Memory.storeBytes m a bs) x =
      if a ≤ x ∧ x < a + bs.length then bs[x - a]? else Memory.get? m x
  | [], m, a, x => by
    rw [Memory.storeBytes, if_neg (by rw [List.length_nil]; omega)]
  | b :: bs, m, a, x => by
    rw [Memory.storeBytes, get?_storeBytes bs, get?_set]
    simp only [List.length_cons]
    by_cases hx : x = a
    · subst hx
      rw [if_neg (by omega), if_pos rfl, if_pos (by omega)]
      simp
    · by_cases hin : a + 1 ≤ x ∧ x < a + 1 + bs.length
      · rw [if_pos hin, if_pos (by omega), show x - a = (x - (a + 1)) + 1 by omega, List.getElem?_cons_succ]
      · rw [if_neg hin, if_neg hx, if_neg (by omega)]

theorem get?_keepBelow : ∀ (m : Memory) (n x : Nat),
    Memory.get? (Memory.keepBelow m n) x = if x < n then Memory.get? m x else none
  | [], n, x => by simp [Memory.keepBelow, Memory.get?]
  | (k, y) :: m, n, x => by
    have ih := get?_keepBelow m n x
    rw [Memory.keepBelow] at ih
    by_cases hk : k < n
    · rw [Memory.keepBelow, List.filter_cons_of_pos (by simpa using hk)]
      simp only [Memory.get?]
      by_cases hx : k = x
      · subst hx; simp [hk]
      · simp [hx, ih]
    · rw [Memory.keepBelow, List.filter_cons_of_neg (by simpa using hk), ih]
      simp only [Memory.get?]
      by_cases hx : k = x
      · subst hx; simp [hk]
      · simp [hx]

/-! ### The canonical form -/

theorem wf_iff_pairwise : ∀ m : Memory, Memory.wf m = true ↔ m.Pairwise fun x y => x.1 < y.1
  | [] => by simp [Memory.wf]
  | [_] => by simp [Memory.wf]
  | (k, b) :: (k', b') :: m => by
    have ih := wf_iff_pairwise ((k', b') :: m)
    rw [Memory.wf, Bool.and_eq_true, ih, decide_eq_true_iff, List.pairwise_cons (a := (k, b))]
    constructor
    · rintro ⟨h, hp⟩
      refine ⟨fun x hx => ?_, hp⟩
      rcases List.mem_cons.1 hx with rfl | hx
      · exact h
      · exact Nat.lt_trans h ((List.pairwise_cons.1 hp).1 x hx)
    · rintro ⟨h, hp⟩
      exact ⟨h (k', b') (by simp), hp⟩

theorem mem_set {m : Memory} {a : Nat} {b : Byte} {x : Host.Cell} : x ∈ Memory.set m a b → x = (a, b) ∨ x ∈ m := by
  induction m with
  | nil => simp [Memory.set]
  | cons c m ih =>
    obtain ⟨k, y⟩ := c
    unfold Memory.set
    split
    · simp
    · split
      · intro h
        rcases List.mem_cons.1 h with h | h
        · exact .inl h
        · exact .inr (by simp [h])
      · intro h
        rcases List.mem_cons.1 h with h | h
        · exact .inr (by simp [h])
        · exact (ih h).imp id fun h => by simp [h]

theorem wf_set {m : Memory} (h : Memory.wf m = true) (a : Nat) (b : Byte) : Memory.wf (Memory.set m a b) = true := by
  rw [wf_iff_pairwise] at *
  induction m with
  | nil => simp [Memory.set]
  | cons c m ih =>
    obtain ⟨k, y⟩ := c
    obtain ⟨hk, hm⟩ := List.pairwise_cons.1 h
    unfold Memory.set
    split
    · rename_i hlt
      refine List.pairwise_cons.2 ⟨fun x hx => ?_, h⟩
      rcases List.mem_cons.1 hx with rfl | hx
      · exact hlt
      · exact Nat.lt_trans hlt (hk x hx)
    · split
      · rename_i _ heq
        subst heq
        exact List.pairwise_cons.2 ⟨hk, hm⟩
      · refine List.pairwise_cons.2 ⟨fun x hx => ?_, ih hm⟩
        rcases mem_set hx with rfl | hx
        · simp; omega
        · exact hk x hx

theorem wf_storeBytes : ∀ (bs : List Byte) {m : Memory} (_ : Memory.wf m = true) (a : Nat),
    Memory.wf (Memory.storeBytes m a bs) = true
  | [], _, h, _ => h
  | _ :: bs, _, h, a => wf_storeBytes bs (wf_set h a _) (a + 1)

theorem wf_keepBelow {m : Memory} (h : Memory.wf m = true) (n : Nat) : Memory.wf (Memory.keepBelow m n) = true := by
  rw [wf_iff_pairwise] at *
  exact h.filter _

theorem below_set {m : Memory} {n a : Nat} (h : Memory.below m n = true) (ha : a < n) (b : Byte) :
    Memory.below (Memory.set m a b) n = true := by
  simp only [Memory.below, List.all_eq_true, decide_eq_true_eq] at *
  intro x hx
  rcases mem_set hx with rfl | hx
  · exact ha
  · exact h x hx

/-- Every buffer of a state after reset is in canonical form. -/
theorem reset_memories_wf (c : Cfg) (sp : Space) : Memory.wf ((State.resetWith c).mem sp) = true := by cases sp <;> rfl

/-- A write of one buffer byte keeps every buffer in canonical form. -/
theorem setByte_wf {s : State} (h : ∀ sp, Memory.wf (s.mem sp) = true) (sp : Space) (a : Nat) (b : Byte) (sp' : Space) :
    Memory.wf ((s.setByte sp a b).mem sp') = true := by
  have hk : Memory.wf s.keymem = true := h .keymem
  have hi : Memory.wf s.inmem = true := h .inmem
  have ho : Memory.wf s.outmem = true := h .outmem
  cases sp <;> cases sp' <;>
    first | assumption | exact wf_set hk a b | exact wf_set hi a b | exact wf_set ho a b

/-- A data command's output keeps every buffer in canonical form. -/
theorem storeOutput_wf {s : State} (h : ∀ sp, Memory.wf (s.mem sp) = true) (o : List Byte) (sp : Space) :
    Memory.wf ((s.storeOutput o).mem sp) = true := by
  have hk : Memory.wf s.keymem = true := h .keymem
  have hi : Memory.wf s.inmem = true := h .inmem
  have ho : Memory.wf s.outmem = true := h .outmem
  cases sp <;> first | assumption | exact wf_keepBelow (wf_storeBytes o ho 0) o.length

/-! ### The buffers of a state -/

theorem byteAt_setByte (s : State) (sp : Space) (a : Nat) (b : Byte) (sp' : Space) (x : Nat) :
    (s.setByte sp a b).byteAt sp' x = if sp' = sp ∧ x = a then b else s.byteAt sp' x := by
  cases sp <;> cases sp' <;>
    simp [State.byteAt, State.setByte, State.mem, State.epoch, get?_set] <;> split <;> simp_all

theorem written_setByte (s : State) (sp : Space) (a : Nat) (b : Byte) (sp' : Space) (x : Nat) :
    (s.setByte sp a b).written sp' x = if sp' = sp ∧ x = a then true else s.written sp' x := by
  cases sp <;> cases sp' <;>
    simp [State.written, State.setByte, State.mem, get?_set] <;> split <;> simp_all

@[simp] theorem memRead_length (s : State) (sp : Space) (a n : Nat) : (s.memRead sp a n).length = n := by
  simp [State.memRead]

theorem memRead_getElem? (s : State) (sp : Space) (a n k : Nat) :
    (s.memRead sp a n)[k]? = if k < n then some (s.byteAt sp (a + k)) else none := by
  simp only [State.memRead, List.getElem?_map]
  by_cases h : k < n <;> simp [h]

/-- Two states that hold the same bytes in a range read the same there. -/
theorem memRead_congr {s t : State} {sp sp' : Space} {n : Nat} (h : ∀ k < n, s.byteAt sp k = t.byteAt sp' k) :
    s.memRead sp 0 n = t.memRead sp' 0 n := by
  unfold State.memRead
  apply List.map_congr_left
  intro k hk
  simpa using h k (List.mem_range.1 hk)

/-- What a data command's output looks like in OUTMEM. -/
theorem get?_storeOutput (s : State) (o : List Byte) (a : Nat) : Memory.get? (s.storeOutput o).outmem a = o[a]? := by
  simp only [State.storeOutput_outmem, get?_keepBelow, get?_storeBytes]
  by_cases h : a < o.length
  · simp [h]
  · simp [h]

theorem storeOutput_reads (s : State) (o : List Byte) : (s.storeOutput o).memRead .outmem 0 o.length = o := by
  apply List.ext_getElem?
  intro k
  rw [memRead_getElem?]
  by_cases h : k < o.length
  · have := get?_storeOutput s o k
    simp only [List.getElem?_eq_getElem h] at this
    simp only [h, if_true, State.byteAt, State.mem, Nat.zero_add, this, Option.getD_some, List.getElem?_eq_getElem]
  · simp [h]

theorem storeOutput_written (s : State) (o : List Byte) (a : Nat) :
    (s.storeOutput o).written .outmem a = decide (a < o.length) := by
  simp only [State.written, State.mem, get?_storeOutput]
  by_cases h : a < o.length <;> simp [h]

end Sys2Proof.Machine
end

