-- ==== Sys2Proof/Laws/Commands.lean ====
section
/-!
SUPPORT. Everything a command and a host action can do, said once: the inversion lemmas of `exec`, `writeCmd`, `act` and
`step`, which later proofs cite instead of unfolding them.
-/

namespace Sys2Proof.Machine

/-! ### Outcomes -/

@[simp] theorem next_inj {s t : State} : (Host.Outcome.next s : Result) = .next t ↔ s = t :=
  ⟨fun h => by cases h; rfl, fun h => by rw [h]⟩

@[simp] theorem mapNext_next (f : State → State) (s : State) : mapNext f (.next s) = .next (f s) := rfl

@[simp] theorem nextState?_next (s : State) : nextState? (.next s) = some s := rfl

@[simp] theorem finish_ok (base t : State) : finish base (.ok t) = .next t.complete := rfl

@[simp] theorem finish_error (base : State) (f : FaultCode) : finish base (.error f) = .next (base.raise f) := rfl

theorem unlessHalted_of_halt {s : State} (h : s.halt = true) (x : Result) : unlessHalted s x = .next s := by
  simp [unlessHalted, h]

theorem unlessHalted_of_running {s : State} (h : s.halt = false) (x : Result) : unlessHalted s x = x := by
  simp [unlessHalted, h]

theorem finish_answers (base : State) (r : Except FaultCode State) : ∃ t, finish base r = .next t := by
  cases r with
  | ok t => exact ⟨_, rfl⟩
  | error f => exact ⟨_, rfl⟩

theorem finish_cases {base t : State} {r : Except FaultCode State} (h : finish base r = .next t) :
    (∃ u, r = .ok u ∧ t = u.complete) ∨ (∃ f, r = .error f ∧ t = base.raise f) := by
  cases r with
  | ok u => exact .inl ⟨u, rfl, (next_inj.1 h).symm⟩
  | error f => exact .inr ⟨f, rfl, (next_inj.1 h).symm⟩

/-! ### Fault codes -/

@[simp] theorem errValue_ne_zero (f : FaultCode) : f.errValue ≠ 0#4 := by cases f <;> decide

theorem errValue_le (f : FaultCode) : f.errValue.toNat ≤ 7 := by cases f <;> decide

theorem stickyBit_eq (f : FaultCode) : f.stickyBit = BitVec.ofNat 8 (2 ^ f.errValue.toNat) := by cases f <;> rfl

theorem stickyBit_self (f : FaultCode) : f.stickyBit.getLsbD f.errValue.toNat = true := by cases f <;> rfl

theorem stickyBit_zero (f : FaultCode) : f.stickyBit.getLsbD 0 = false := by cases f <;> rfl

/-! ### Operands -/

theorem require_eq_ok {p : Prop} [Decidable p] {f : FaultCode} {u : Unit} : require p f = .ok u ↔ p := by
  unfold require; split <;> simp_all

@[simp] theorem require_pos {p : Prop} [Decidable p] {f : FaultCode} (h : p) : require p f = .ok () := if_pos h

@[simp] theorem require_neg {p : Prop} [Decidable p] {f : FaultCode} (h : ¬p) : require p f = .error f := if_neg h

theorem keyOperand_cases (s : State) :
    (s.cfg.keyCap < s.klen.toNat ∧ keyOperand s = .error .capacity) ∨
    (s.klen.toNat ≤ s.cfg.keyCap ∧ s.klen.toNat < s.cfg.keyBytes ∧ keyOperand s = .error .invalidKey) ∨
    (s.klen.toNat ≤ s.cfg.keyCap ∧ s.cfg.keyBytes ≤ s.klen.toNat ∧
      keyOperand s = .ok (s.memRead .keymem 0 s.cfg.keyBytes)) := by
  by_cases h1 : s.klen.toNat ≤ s.cfg.keyCap
  · by_cases h2 : s.cfg.keyBytes ≤ s.klen.toNat
    · exact .inr (.inr ⟨h1, h2, by simp [keyOperand, h1, h2]⟩)
    · exact .inr (.inl ⟨h1, by omega, by simp [keyOperand, h1, h2]⟩)
  · exact .inl ⟨by omega, by simp [keyOperand, h1]⟩

theorem blockOperand_cases (s : State) :
    (s.keyValid = false ∧ blockOperand s = .error .noKey) ∨
    (s.keyValid = true ∧ s.mlen.toNat ≠ 8 ∧ blockOperand s = .error .invalidBlockLength) ∨
    (s.keyValid = true ∧ s.mlen.toNat = 8 ∧ blockOperand s = .ok (s.memRead .inmem 0 8)) := by
  by_cases h1 : s.keyValid = true
  · by_cases h2 : s.mlen.toNat = 8
    · exact .inr (.inr ⟨h1, h2, by simp [blockOperand, h1, h2]⟩)
    · exact .inr (.inl ⟨h1, h2, by simp [blockOperand, h1, h2]⟩)
  · exact .inl ⟨by simpa using h1, by simp [blockOperand, h1]⟩

theorem messageOperand_cases (s : State) :
    (s.keyValid = false ∧ messageOperand s = .error .noKey) ∨
    (s.keyValid = true ∧ s.cfg.msgCap < s.mlen.toNat ∧ messageOperand s = .error .capacity) ∨
    (s.keyValid = true ∧ s.mlen.toNat ≤ s.cfg.msgCap ∧
      messageOperand s = .ok (s.memRead .inmem 0 s.mlen.toNat)) := by
  by_cases h1 : s.keyValid = true
  · by_cases h2 : s.mlen.toNat ≤ s.cfg.msgCap
    · exact .inr (.inr ⟨h1, h2, by simp [messageOperand, h1, h2]⟩)
    · exact .inr (.inl ⟨h1, by omega, by simp [messageOperand, h1, h2]⟩)
  · exact .inl ⟨by simpa using h1, by simp [messageOperand, h1]⟩

theorem ciphertextOperand_cases (s : State) :
    (s.keyValid = false ∧ ciphertextOperand s = .error .noKey) ∨
    (s.keyValid = true ∧ s.cfg.msgCap < s.mlen.toNat ∧ ciphertextOperand s = .error .capacity) ∨
    (s.keyValid = true ∧ s.mlen.toNat ≤ s.cfg.msgCap ∧ s.mlen.toNat % 8 ≠ 0 ∧
      ciphertextOperand s = .error .invalidBlockLength) ∨
    (s.keyValid = true ∧ s.mlen.toNat ≤ s.cfg.msgCap ∧ s.mlen.toNat % 8 = 0 ∧
      ciphertextOperand s = .ok (s.memRead .inmem 0 s.mlen.toNat)) := by
  by_cases h1 : s.keyValid = true
  · by_cases h2 : s.mlen.toNat ≤ s.cfg.msgCap
    · by_cases h3 : s.mlen.toNat % 8 = 0
      · exact .inr (.inr (.inr ⟨h1, h2, h3, by simp [ciphertextOperand, h1, h2, h3]⟩))
      · exact .inr (.inr (.inl ⟨h1, h2, h3, by simp [ciphertextOperand, h1, h2, h3]⟩))
    · exact .inr (.inl ⟨h1, by omega, by simp [ciphertextOperand, h1, h2]⟩)
  · exact .inl ⟨by simpa using h1, by simp [ciphertextOperand, h1]⟩

/-! ### Command bodies that succeed -/

theorem loadKey_ok {s u : State} (h : loadKey s = .ok u) : ∃ rk,
    s.klen.toNat ≤ s.cfg.keyCap ∧ s.cfg.keyBytes ≤ s.klen.toNat ∧
    deriveBits s.cfg (bytesToBits (s.memRead .keymem 0 s.cfg.keyBytes)) = .ok rk ∧
    u = (s.installInstance (bytesToBits (s.memRead .keymem 0 s.cfg.keyBytes)) rk).unspecifySchedule := by
  rcases keyOperand_cases s with ⟨_, h'⟩ | ⟨_, _, h'⟩ | ⟨h1, h2, h'⟩
  · simp [loadKey, h'] at h
  · simp [loadKey, h'] at h
  · obtain ⟨rk, hrk, h⟩ := except_bind_eq_ok.1 (by simpa [loadKey, h'] using h)
    exact ⟨rk, h1, h2, hrk, by cases h; rfl⟩

theorem blockCommand_ok {tag : Action} {s u : State} (h : blockCommand tag s = .ok u) : ∃ o,
    s.keyValid = true ∧ s.mlen.toNat = 8 ∧ cryptBlock s.cfg (s.memRead .inmem 0 8) s.rk tag = .ok o ∧
    u = (s.storeOutput o).unspecifyBlock := by
  rcases blockOperand_cases s with ⟨_, h'⟩ | ⟨_, _, h'⟩ | ⟨h1, h2, h'⟩
  · simp [blockCommand, h'] at h
  · simp [blockCommand, h'] at h
  · obtain ⟨o, ho, h⟩ := except_bind_eq_ok.1 (by simpa [blockCommand, h'] using h)
    exact ⟨o, h1, h2, ho, by cases h; rfl⟩

theorem encryptMessage_ok {s u : State} (h : encryptMessage s = .ok u) : ∃ ct,
    s.keyValid = true ∧ s.mlen.toNat ≤ s.cfg.msgCap ∧
    encMessage s.cfg (s.memRead .inmem 0 s.mlen.toNat) s.rk = .ok ct ∧ u = (s.storeOutput ct).unspecifyMessage := by
  rcases messageOperand_cases s with ⟨_, h'⟩ | ⟨_, _, h'⟩ | ⟨h1, h2, h'⟩
  · simp [encryptMessage, h'] at h
  · simp [encryptMessage, h'] at h
  · obtain ⟨o, ho, h⟩ := except_bind_eq_ok.1 (by simpa [encryptMessage, h'] using h)
    exact ⟨o, h1, h2, ho, by cases h; rfl⟩

theorem decryptMessage_ok {s u : State} (h : decryptMessage s = .ok u) : ∃ pt bad,
    s.keyValid = true ∧ s.mlen.toNat ≤ s.cfg.msgCap ∧ s.mlen.toNat % 8 = 0 ∧
    decMessage s.cfg (s.memRead .inmem 0 s.mlen.toNat) s.rk = .ok (pt, bad) ∧
    u = { (s.storeOutput pt).unspecifyMessage with badpad := bad } := by
  rcases ciphertextOperand_cases s with ⟨_, h'⟩ | ⟨_, _, h'⟩ | ⟨_, _, _, h'⟩ | ⟨h1, h2, h3, h'⟩
  · simp [decryptMessage, h'] at h
  · simp [decryptMessage, h'] at h
  · simp [decryptMessage, h'] at h
  · obtain ⟨⟨pt, bad⟩, ho, h⟩ := except_bind_eq_ok.1 (by simpa [decryptMessage, h'] using h)
    exact ⟨pt, bad, h1, h2, h3, ho, by cases h; rfl⟩

/-! ### exec -/

/-- What the body of a command other than NOP and RST gives, and the state its faults start from. -/
def commandBody (i : Instr) (s : State) : Except FaultCode State :=
  match i with
  | .kload => loadKey s.discardInstance
  | .kclr => .ok s.discardInstance
  | .encb => blockCommand .encrypt s
  | .decb => blockCommand .decrypt s
  | .encm => encryptMessage s
  | .decm => decryptMessage s
  | .nop => .ok s
  | .rst => .ok s.resetAll

/-- The state a command's fault is raised from: KLOAD's discard is kept (60_exceptions.md R193). -/
def faultBase (i : Instr) (s : State) : State := if i = .kload then s.discardInstance else s

theorem exec_eq_finish {i : Instr} {s : State} (hn : i ≠ .nop) (hr : i ≠ .rst) :
    exec i s = unlessHalted s (finish (faultBase i s) (commandBody i s)) := by
  cases i <;> first | rfl | contradiction

theorem exec_answers (i : Instr) (s : State) : ∃ t, exec i s = .next t := by
  by_cases hn : i = .nop
  · subst hn; exact ⟨s, rfl⟩
  by_cases hr : i = .rst
  · subst hr; exact ⟨s.resetAll, rfl⟩
  rw [exec_eq_finish hn hr, unlessHalted]
  split
  · exact ⟨s, rfl⟩
  · exact finish_answers _ _

/-- Everything a command can do. -/
theorem exec_cases {i : Instr} {s t : State} (h : exec i s = .next t) :
    (i ≠ .rst ∧ (i = .nop ∨ s.halt = true) ∧ t = s) ∨
    (i = .rst ∧ t = s.resetAll) ∨
    (i ≠ .nop ∧ i ≠ .rst ∧ s.halt = false ∧ ∃ f, commandBody i s = .error f ∧ t = (faultBase i s).raise f) ∨
    (i ≠ .nop ∧ i ≠ .rst ∧ s.halt = false ∧ ∃ u, commandBody i s = .ok u ∧ t = u.complete) := by
  by_cases hn : i = .nop
  · subst hn; exact .inl ⟨by decide, .inl rfl, (next_inj.1 h).symm⟩
  by_cases hr : i = .rst
  · subst hr; exact .inr (.inl ⟨rfl, (next_inj.1 h).symm⟩)
  rw [exec_eq_finish hn hr] at h
  cases hh : s.halt with
  | true => rw [unlessHalted_of_halt hh] at h; exact .inl ⟨hr, .inr rfl, (next_inj.1 h).symm⟩
  | false =>
    rw [unlessHalted_of_running hh] at h
    rcases finish_cases h with ⟨u, hu, ht⟩ | ⟨f, hf, ht⟩
    · exact .inr (.inr (.inr ⟨hn, hr, rfl, u, hu, ht⟩))
    · exact .inr (.inr (.inl ⟨hn, hr, rfl, f, hf, ht⟩))

/-- What a command that succeeds has made of the state, command by command. -/
theorem commandBody_ok {i : Instr} {s u : State} (hn : i ≠ .nop) (hr : i ≠ .rst) (h : commandBody i s = .ok u) :
    (i = .kload ∧ ∃ rk, s.klen.toNat ≤ s.cfg.keyCap ∧ s.cfg.keyBytes ≤ s.klen.toNat ∧
      deriveBits s.cfg (bytesToBits (s.memRead .keymem 0 s.cfg.keyBytes)) = .ok rk ∧
      u = (s.discardInstance.installInstance (bytesToBits (s.memRead .keymem 0 s.cfg.keyBytes)) rk).unspecifySchedule) ∨
    (i = .kclr ∧ u = s.discardInstance) ∨
    (∃ tag o, (i = .encb ∧ tag = .encrypt ∨ i = .decb ∧ tag = .decrypt) ∧ s.keyValid = true ∧ s.mlen.toNat = 8 ∧
      cryptBlock s.cfg (s.memRead .inmem 0 8) s.rk tag = .ok o ∧ u = (s.storeOutput o).unspecifyBlock) ∨
    (i = .encm ∧ ∃ ct, s.keyValid = true ∧ s.mlen.toNat ≤ s.cfg.msgCap ∧
      encMessage s.cfg (s.memRead .inmem 0 s.mlen.toNat) s.rk = .ok ct ∧ u = (s.storeOutput ct).unspecifyMessage) ∨
    (i = .decm ∧ ∃ pt bad, s.keyValid = true ∧ s.mlen.toNat ≤ s.cfg.msgCap ∧ s.mlen.toNat % 8 = 0 ∧
      decMessage s.cfg (s.memRead .inmem 0 s.mlen.toNat) s.rk = .ok (pt, bad) ∧
      u = { (s.storeOutput pt).unspecifyMessage with badpad := bad }) := by
  cases i with
  | nop => contradiction
  | rst => contradiction
  | kload =>
    obtain ⟨rk, h⟩ := loadKey_ok h
    exact .inl ⟨rfl, rk, h⟩
  | kclr => exact .inr (.inl ⟨rfl, by cases h; rfl⟩)
  | encb =>
    obtain ⟨o, h⟩ := blockCommand_ok h
    exact .inr (.inr (.inl ⟨.encrypt, o, .inl ⟨rfl, rfl⟩, h⟩))
  | decb =>
    obtain ⟨o, h⟩ := blockCommand_ok h
    exact .inr (.inr (.inl ⟨.decrypt, o, .inr ⟨rfl, rfl⟩, h⟩))
  | encm =>
    obtain ⟨ct, h⟩ := encryptMessage_ok h
    exact .inr (.inr (.inr (.inl ⟨rfl, ct, h⟩)))
  | decm =>
    obtain ⟨pt, bad, h⟩ := decryptMessage_ok h
    exact .inr (.inr (.inr (.inr ⟨rfl, pt, bad, h⟩)))

/-- Over a buildable configuration a command fails with a reported fault only. -/
theorem commandBody_error {i : Instr} {s : State} {f : FaultCode} (wf : s.cfg.WF)
    (hrk : s.keyValid = true → RoundKeysShaped s.cfg s.rk) (h : commandBody i s = .error f) : f = .invalidKey ∨ f = .invalidBlockLength ∨ f = .noKey ∨ f = .capacity := by
  cases i with
  | nop => cases h
  | rst => cases h
  | kclr => cases h
  | kload =>
    simp only [commandBody] at h
    rcases keyOperand_cases s.discardInstance with ⟨_, h'⟩ | ⟨h1, _, h'⟩ | ⟨h1, h2, h'⟩
    · simp [loadKey, h'] at h; simp [← h]
    · simp [loadKey, h'] at h; simp [← h]
    · obtain ⟨rk, hrk, hs⟩ := deriveBits_ok wf (key := bytesToBits (s.memRead .keymem 0 s.cfg.keyBytes))
        (by simp [Cfg.keyBits])
      have : deriveBits s.discardInstance.cfg
          (bytesToBits (s.discardInstance.memRead .keymem 0 s.discardInstance.cfg.keyBytes)) = .ok rk := hrk
      simp only [loadKey, h', except_ok_bind, this] at h; cases h
  | encb =>
    simp only [commandBody] at h
    rcases blockOperand_cases s with ⟨_, h'⟩ | ⟨h1, _, h'⟩ | ⟨h1, h2, h'⟩
    · simp [blockCommand, h'] at h; simp [← h]
    · simp [blockCommand, h'] at h; simp [← h]
    · obtain ⟨o, ho, _⟩ := cryptBlock_ok wf (hrk h1) .encrypt (block := s.memRead .inmem 0 8) (by simp)
      simp [blockCommand, h', ho] at h
  | decb =>
    simp only [commandBody] at h
    rcases blockOperand_cases s with ⟨_, h'⟩ | ⟨h1, _, h'⟩ | ⟨h1, h2, h'⟩
    · simp [blockCommand, h'] at h; simp [← h]
    · simp [blockCommand, h'] at h; simp [← h]
    · obtain ⟨o, ho, _⟩ := cryptBlock_ok wf (hrk h1) .decrypt (block := s.memRead .inmem 0 8) (by simp)
      simp [blockCommand, h', ho] at h
  | encm =>
    simp only [commandBody] at h
    rcases messageOperand_cases s with ⟨_, h'⟩ | ⟨h1, _, h'⟩ | ⟨h1, h2, h'⟩
    · simp [encryptMessage, h'] at h; simp [← h]
    · simp [encryptMessage, h'] at h; simp [← h]
    · obtain ⟨o, ho, _⟩ := encMessage_ok wf (hrk h1) (s.memRead .inmem 0 s.mlen.toNat)
      simp [encryptMessage, h', ho] at h
  | decm =>
    simp only [commandBody] at h
    rcases ciphertextOperand_cases s with ⟨_, h'⟩ | ⟨h1, _, h'⟩ | ⟨h1, _, _, h'⟩ | ⟨h1, h2, h3, h'⟩
    · simp [decryptMessage, h'] at h; simp [← h]
    · simp [decryptMessage, h'] at h; simp [← h]
    · simp [decryptMessage, h'] at h; simp [← h]
    · obtain ⟨o, b, ho, _⟩ := decMessage_ok wf (hrk h1) (ct := s.memRead .inmem 0 s.mlen.toNat) (by simpa using h3)
      simp [decryptMessage, h', ho] at h

/-- What no command that succeeds changes. -/
theorem commandBody_frame {i : Instr} {s u : State} (hn : i ≠ .nop) (hr : i ≠ .rst) (h : commandBody i s = .ok u) :
    SameSurroundings s u ∧ u.halt = s.halt ∧ u.esticky = s.esticky ∧ u.busy = s.busy := by
  rcases commandBody_ok hn hr h with ⟨_, rk, _, _, _, rfl⟩ | ⟨_, rfl⟩ | ⟨_, o, _, _, _, _, rfl⟩ | ⟨_, ct, _, _, _, rfl⟩ |
    ⟨_, pt, bad, _, _, _, _, rfl⟩ <;> exact ⟨⟨rfl, rfl, rfl⟩, rfl, rfl, rfl⟩

/-- What the discard of KLOAD leaves to a fault raised after it. -/
theorem faultBase_frame (i : Instr) (s : State) :
    SameSurroundings s (faultBase i s) ∧ (faultBase i s).halt = s.halt ∧ (faultBase i s).esticky = s.esticky ∧
      (faultBase i s).busy = s.busy := by
  unfold faultBase
  split <;> exact ⟨⟨rfl, rfl, rfl⟩, rfl, rfl, rfl⟩

/-! ### Host actions and the step -/

theorem reservedWord_eq (s : State) : reservedWord s = .next (if s.halt = true then s else s.raise .invalidAction) := by
  cases h : s.halt <;> simp [reservedWord, unlessHalted, h]

theorem writeCmd_ok {w : Word} {i : Instr} (h : decode w = .ok i) (s : State) :
    writeCmd w s = mapNext State.endCommand (exec i s.beginCommand) := by
  simp [writeCmd, h]

theorem writeCmd_error {w : Word} {e : DecodeError} (h : decode w = .error e) (s : State) :
    writeCmd w s = .next ((if s.halt = true then s.beginCommand else s.beginCommand.raise .invalidAction).endCommand) := by
  simp only [writeCmd, h, reservedWord_eq, mapNext_next]
  rfl

/-- Everything a write of CMD can do. -/
theorem writeCmd_cases {w : Word} {s t : State} (h : writeCmd w s = .next t) :
    (∃ i u, decode w = .ok i ∧ exec i s.beginCommand = .next u ∧ t = u.endCommand) ∨
    (∃ e, decode w = .error e ∧
      t = (if s.halt = true then s.beginCommand else s.beginCommand.raise .invalidAction).endCommand) := by
  cases hd : decode w with
  | ok i =>
    rw [writeCmd_ok hd] at h
    obtain ⟨u, hu⟩ := exec_answers i s.beginCommand
    rw [hu] at h
    exact .inl ⟨i, u, rfl, hu, (next_inj.1 h).symm⟩
  | error e =>
    rw [writeCmd_error hd] at h
    exact .inr ⟨e, rfl, (next_inj.1 h).symm⟩

theorem writeCmd_answers (w : Word) (s : State) : ∃ t, writeCmd w s = .next t := by
  cases hd : decode w with
  | ok i =>
    obtain ⟨u, hu⟩ := exec_answers i s.beginCommand
    exact ⟨u.endCommand, by rw [writeCmd_ok hd, hu]; rfl⟩
  | error e => exact ⟨_, writeCmd_error hd s⟩

theorem hostWriteReg_cases (n : Nat) (v : Word) (s : State) :
    hostWriteReg n v s = if n = 0 then writeCmd v s else if n = 2 then .next { s with klen := v }
      else if n = 3 then .next { s with mlen := v } else .next s := by
  match n with
  | 0 => rfl
  | 1 => rfl
  | 2 => rfl
  | 3 => rfl
  | n + 4 => simp [hostWriteReg]

theorem regValue_eq (s : State) (n : Nat) :
    s.regValue n = if n = 1 then s.statusWord else if n = 2 then s.klen else if n = 3 then s.mlen
      else if n = 4 then s.olen else if n = 5 then cfg0Word s.cfg else 0#32 := by
  match n with
  | 0 => rfl
  | 1 => rfl
  | 2 => rfl
  | 3 => rfl
  | 4 => rfl
  | 5 => rfl
  | n + 6 => simp [State.regValue]

/-- A buffer write stores one byte or changes nothing. -/
theorem hostWriteMem_cases (sp : Space) (a : Nat) (b : Byte) (s : State) :
    (sp ≠ .outmem ∧ a < bufferSize s.cfg sp ∧ hostWriteMem sp a b s = s.setByte sp a b) ∨
    ((sp = .outmem ∨ bufferSize s.cfg sp ≤ a) ∧ hostWriteMem sp a b s = s) := by
  cases sp <;> simp only [hostWriteMem] <;> first | (split <;> simp_all) | simp

theorem act_answers (a : HostAction) (s : State) : ∃ t, act a s = .next t := by
  unfold act
  split
  · cases a with
    | readReg n => by_cases hn : n = 1 <;> simp [actBusy, hn]
    | _ => exact ⟨_, rfl⟩
  · cases a with
    | writeReg n v =>
      simp only [actIdle, hostWriteReg_cases]
      split
      · exact writeCmd_answers v s
      · split
        · exact ⟨_, rfl⟩
        · split <;> exact ⟨_, rfl⟩
    | _ => exact ⟨_, rfl⟩

theorem step_cons {s : State} {a : HostAction} {rest : List HostAction} (h : s.host = a :: rest) :
    step s = act a { s with host := rest } := by
  simp [step, nextAction, h, State.popHost]

theorem step_idle {s : State} {a : HostAction} {rest : List HostAction} (h : s.host = a :: rest) (hb : s.busy = false) :
    step s = actIdle a { s with host := rest } := by
  rw [step_cons h]
  exact if_neg (by rw [hb]; decide)

theorem step_busy {s : State} {a : HostAction} {rest : List HostAction} (h : s.host = a :: rest) (hb : s.busy = true) :
    step s = actBusy a { s with host := rest } := by
  rw [step_cons h]
  exact if_pos hb

theorem step_nil {s : State} (h : s.host = []) : step s = .next s := by simp [step, nextAction, h]

/-- Everything a host action can do while `BUSY = 0`. -/
theorem actIdle_cases {a : HostAction} {s t : State} (h : actIdle a s = .next t) :
    (∃ w, a = .writeReg 0 w ∧ writeCmd w s = .next t) ∨
    (∃ n v, a = .writeReg n v ∧ n ≠ 0 ∧ (t = { s with klen := v } ∨ t = { s with mlen := v } ∨ t = s)) ∨
    (∃ n, a = .readReg n ∧ t = s.reply (.reg (s.regValue n))) ∨
    (∃ sp o b, a = .writeMem sp o b ∧ t = hostWriteMem sp o b s) ∨
    (∃ sp o, a = .readMem sp o ∧ t = s.reply (.byte (s.memValue sp o))) ∨
    (a = .reset ∧ t = s.resetAll) := by
  cases a with
  | writeReg n v =>
    simp only [actIdle, hostWriteReg_cases] at h
    split at h
    · rename_i hn; subst hn; exact .inl ⟨v, rfl, h⟩
    · rename_i hn
      refine .inr (.inl ⟨n, v, rfl, hn, ?_⟩)
      split at h
      · exact .inl (next_inj.1 h).symm
      · split at h
        · exact .inr (.inl (next_inj.1 h).symm)
        · exact .inr (.inr (next_inj.1 h).symm)
  | readReg n => exact .inr (.inr (.inl ⟨n, rfl, (next_inj.1 h).symm⟩))
  | writeMem sp o b => exact .inr (.inr (.inr (.inl ⟨sp, o, b, rfl, (next_inj.1 h).symm⟩)))
  | readMem sp o => exact .inr (.inr (.inr (.inr (.inl ⟨sp, o, rfl, (next_inj.1 h).symm⟩))))
  | reset => exact .inr (.inr (.inr (.inr (.inr ⟨rfl, (next_inj.1 h).symm⟩))))

/-- Everything a host action can do while `BUSY = 1`: nothing but replies, or a reset. -/
theorem actBusy_cases {a : HostAction} {s t : State} (h : actBusy a s = .next t) :
    t = s ∨ (∃ x, t = s.reply x) ∨ (∃ x, t = (s.reply x).advanceDraws) ∨ (a = .reset ∧ t = s.resetAll) := by
  cases a with
  | writeReg n v => exact .inl (next_inj.1 h).symm
  | readReg n =>
    by_cases hn : n = 1
    · exact .inr (.inl ⟨_, (next_inj.1 (by simpa only [actBusy, hn, if_true] using h)).symm⟩)
    · exact .inr (.inr (.inl ⟨_, (next_inj.1 (by simpa only [actBusy, hn, if_false] using h)).symm⟩))
  | writeMem sp o b => exact .inl (next_inj.1 h).symm
  | readMem sp o => exact .inr (.inr (.inl ⟨_, (next_inj.1 h).symm⟩))
  | reset => exact .inr (.inr (.inr ⟨rfl, (next_inj.1 h).symm⟩))

/-- Everything a step can do. -/
theorem step_cases {s t : State} (h : step s = .next t) :
    (s.host = [] ∧ t = s) ∨
    (∃ a rest, s.host = a :: rest ∧
      ((s.busy = true ∧ actBusy a { s with host := rest } = .next t) ∨
       (s.busy = false ∧ actIdle a { s with host := rest } = .next t))) := by
  cases hh : s.host with
  | nil => rw [step_nil hh] at h; exact .inl ⟨rfl, (next_inj.1 h).symm⟩
  | cons a rest =>
    rw [step_cons hh, act] at h
    refine .inr ⟨a, rest, rfl, ?_⟩
    cases hb : s.busy
    · exact .inr ⟨rfl, by simpa [hb] using h⟩
    · exact .inl ⟨rfl, by simpa [hb] using h⟩

end Sys2Proof.Machine
end

