-- ==== Sys2Proof/Laws/PerInstr.lean ====
section
/-!
SUPPORT. Statements about every instruction as syntax, one lemma per constructor.
-/

namespace Sys2Proof.Laws

namespace WordRoundTrip

/-- The decoder reads the command's word as the command, directly and in the opcode table's numbering (30_encoding.md R70,
R72). -/
def Statement (i : Instr) : Prop :=
  i.WellFormed → decode (encode i) = .ok i ∧ decodeTableWord 32 (encode i).toNat = some i ∧ (encode i).toNat < 8

theorem nop : Statement .nop := fun _ => by decide
theorem rst : Statement .rst := fun _ => by decide
theorem kload : Statement .kload := fun _ => by decide
theorem kclr : Statement .kclr := fun _ => by decide
theorem encb : Statement .encb := fun _ => by decide
theorem decb : Statement .decb := fun _ => by decide
theorem encm : Statement .encm := fun _ => by decide
theorem decm : Statement .decm := fun _ => by decide

end WordRoundTrip

end Sys2Proof.Laws
end

