-- ==== Sys2Proof/Tests/Slice0.lean ====
section
/-!
SUPPORT. The tests of the model: expected values from 95_test_vectors.md (the vector is named at each), one step each, and a
witness for the hypotheses of every obligation that has some.
-/

namespace Sys2Proof.Tests

open Sys2Proof Sys2Proof.Machine

-- One theorem is checked at a time: many at once need more memory than there is.
set_option Elab.async false

/-! ### The other two configurations of 95_test_vectors.md section 2, and small states -/

/-- DES16 (95_test_vectors.md section 2.1). -/
def des16 : Cfg := { Config.t32 with rounds := 16, shift := Config.desSHIFT }

/-- G4 (95_test_vectors.md section 2.3). -/
def g4 : Cfg where
  rounds := 32
  g := 4
  keyBytes := 32
  cdBits := 64
  keyCap := 64
  msgCap := 64
  ipfp := none
  e := List.range 32
  p := (List.range 32).map fun i => (i + 11) % 32
  sbox := (List.range 8).map fun g =>
    (List.range 4).map fun row => (List.range 4).map fun col => (7 * (4 * row + col) + 5 * g + 3) % 16
  pc1 := (List.range 64).map fun i => (4 * i + 1) % 256
  pc2 := (List.range 32).map fun i => (2 * i + 1) % 64
  shift := (List.range 32).map fun r => 1 + r % 3

/-- `"secret_k"`. -/
def secretK : List Byte := [0x73#8, 0x65#8, 0x63#8, 0x72#8, 0x65#8, 0x74#8, 0x5F#8, 0x6B#8]

/-- `"Hello wo"`. -/
def hello : List Byte := [0x48#8, 0x65#8, 0x6C#8, 0x6C#8, 0x6F#8, 0x20#8, 0x77#8, 0x6F#8]

/-- ENCB of `"Hello wo"` under `"secret_k"`, T32 (V7.4). -/
def helloEnc : List Byte := [0xFC#8, 0xAC#8, 0x6A#8, 0x24#8, 0x9E#8, 0x40#8, 0x71#8, 0x6F#8]

/-- The padding Block enciphered under `"secret_k"`, T32 (V7.5). -/
def padEnc : List Byte := [0xB0#8, 0x1F#8, 0xDA#8, 0xD0#8, 0x0F#8, 0xAD#8, 0xCD#8, 0x7C#8]

/-- `K4` (95_test_vectors.md section 2.3). -/
def k4 : List Byte := (List.range 32).map fun i => BitVec.ofNat 8 (37 * i + 0x5B)

/-- The round keys of a key. -/
def keysOf (c : Cfg) (key : List Byte) : List Bits := (derive c key).toOption.getD []

/-- The sixteen different round keys of `"secret_k"` under T32, whose schedule has them twice (V5.2). -/
def secretRk : List Bits :=
  ([0xA0BEE6546B13, 0xF0B656B48985, 0x64DE76C206D7, 0xE6F1765FA389, 0xAEC773325549, 0xEF533B4AB126, 0xAF93D9E46DA8,
    0x1F5ADB681A5B, 0x3D4BD9EA8570, 0x17799D89CF0E, 0x1F2DD55C5690, 0x5F6CADD9406D, 0xDBA5AC82FA88, 0xD88EAFB03735,
    0xF1BA2EBB0AA2, 0xF0BEAE0363E6] : List Nat).map fun x => bitsOf x 48

/-- A state with an input message in INMEM. -/
def withMessage (s : State) (msg : List Byte) : State :=
  { s with inmem := Memory.storeBytes [] 0 msg, mlen := BitVec.ofNat 32 msg.length }

/-- A state of T32 with no key and an input message. -/
def unkeyed (msg : List Byte) : State := withMessage State.reset msg

/-- A state of T32 with the cipher instance of `"secret_k"` and an input message. -/
def keyed (msg : List Byte) : State :=
  withMessage { State.reset with
    keyValid := true, key := bytesToBits secretK, rk := secretRk ++ secretRk } msg

/-- A state of T32 with `"secret_k"` staged in KEYMEM. -/
def staged (len : Nat) : State :=
  { State.reset with keymem := Memory.storeBytes [] 0 secretK, klen := BitVec.ofNat 32 len }

/-- A halted state. -/
def haltedState : State := { State.reset with halt := true, err := 4#4, esticky := 0x10#8 }

/-- STATUS, OLEN and the specified bytes of OUTMEM after a command. -/
def outcome (i : Instr) (s : State) : Option (Word × Word × List Byte) :=
  (nextState? (exec i s)).map fun t => (t.statusWord, t.olen, t.outmem.map Prod.snd)

/-- STATUS after a command. -/
def statusAfter (i : Instr) (s : State) : Option Word := (nextState? (exec i s)).map State.statusWord

/-- STATUS after the first step with a command word placed. -/
def statusAfterWord (s : State) (w : Nat) : Option Word :=
  (nextState? (step (s.withFetchWord 32 w))).map State.statusWord

/-- The reply of the next step. -/
def replyOf (s : State) (a : HostAction) : Option (List Reply) :=
  (nextState? (step { s with host := [a] })).map State.replies

/-! ### Well-formedness: the spec's configurations pass, one broken configuration for each check is refused -/

theorem test_wf_t32 : Config.t32.WF := by decide +kernel
theorem test_wf_des16 : des16.WF := by decide +kernel
theorem test_wf_g4 : g4.WF := by decide +kernel
theorem test_inRange : Config.t32.InRange ∧ g4.InRange := by decide +kernel
theorem test_instr_wf : ∀ i ∈ [Instr.nop, .rst, .kload, .kclr, .encb, .decb, .encm, .decm], i.WellFormed := by decide
theorem test_refuses_w1 : ¬ { Config.t32 with rounds := 0 }.W1 := by decide +kernel
theorem test_refuses_w2 : ¬ { Config.t32 with g := 1 }.W2 := by decide +kernel
theorem test_refuses_w3 : ¬ { g4 with e := List.range' 1 32 }.W3 := by decide +kernel
theorem test_refuses_w4 : ¬ { g4 with p := List.range 31 }.W4 := by decide +kernel
theorem test_refuses_w5 : ¬ { g4 with sbox := g4.sbox.map (List.map (List.map (· + 1))) }.W5 := by
  decide +kernel
theorem test_refuses_w6 : ¬ { g4 with keyBytes := 31 }.W6 := by decide +kernel
theorem test_refuses_w7 : ¬ { g4 with pc2 := List.range' 33 32 }.W7 := by decide +kernel
theorem test_refuses_w8 : ¬ { g4 with shift := List.replicate 32 256 }.W8 := by decide +kernel
theorem test_refuses_w9 : ¬ { Config.t32 with ipfp := some (Config.desIP, Config.desIP) }.W9 := by decide +kernel
theorem test_refuses_w10 : ¬ { Config.t32 with msgCap := 60 }.W10 := by decide +kernel

/-! ### Decoding: words written out bit by bit from 30_encoding.md R70, R72; V9.2 -/

theorem test_decode_control :
    decode 0b00000000000000000000000000000_00_0#32 = .ok .nop ∧
    decode 0b00000000000000000000000000000_00_1#32 = .ok .rst := by decide
theorem test_decode_key :
    decode 0b00000000000000000000000000000_01_0#32 = .ok .kload ∧
    decode 0b00000000000000000000000000000_01_1#32 = .ok .kclr := by decide
theorem test_decode_block :
    decode 0b00000000000000000000000000000_10_0#32 = .ok .encb ∧
    decode 0b00000000000000000000000000000_10_1#32 = .ok .decb := by decide
theorem test_decode_message :
    decode 0b00000000000000000000000000000_11_0#32 = .ok .encm ∧
    decode 0b00000000000000000000000000000_11_1#32 = .ok .decm := by decide
/-- V9.2: `0x80000004` is not ENCB. -/
theorem test_decode_reserved :
    decode 8#32 = .error (.reservedWord 8#32) ∧ decode 0x80000004#32 = .error (.reservedWord 0x80000004#32) ∧
    decode 0xFFFFFFFF#32 = .error (.reservedWord 0xFFFFFFFF#32) := by decide
theorem test_decode_table :
    (List.range 9).map (decodeTableWord 32) =
      [some .nop, some .rst, some .kload, some .kclr, some .encb, some .decb, some .encm, some .decm, none] := by decide

/-! ### Bit-vector utilities: V4 -/

/-- V4.1, V4.4, V4.5, V4.7. -/
theorem test_permute :
    permute (bitsOf 0b1000 4) [3, 0, 0] = .ok (bitsOf 0b011 3) ∧
    permute (bitsOf 0b10 2) [0, 0, 1, 1, 0] = .ok (bitsOf 0b11001 5) ∧
    permute (bitsOf 0b1000 4) [4] = .error .indexOutOfRange ∧ permute [] [0] = .error .indexOutOfRange := by decide
/-- V4.9, V4.10, V4.11, V4.14. -/
theorem test_split_merge :
    split (bitsOf 0xABCD 16) 4 = .ok [bitsOf 0xA 4, bitsOf 0xB 4, bitsOf 0xC 4, bitsOf 0xD 4] ∧
    split (bitsOf 0b101 3) 2 = .error .invalidWidth ∧ split (bitsOf 0xAB 8) 0 = .error .invalidWidth ∧
    merge [bitsOf 0xAB 8, bitsOf 0xC 4] = bitsOf 0xABC 12 := by decide
/-- V4.17, V4.19, V4.22, V4.23, V4.26. -/
theorem test_xor :
    xorBits (bitsOf 0b1100 4) (bitsOf 0b1010 4) = .ok (bitsOf 0b0110 4) ∧
    xorBits (bitsOf 0xFF 8) (bitsOf 0xF 4) = .error .invalidWidth ∧
    xorWithCarry (bitsOf 0xFF 8) (bitsOf 0x01 8) = .ok (true, bitsOf 0x00 8) ∧
    xorWithCarry (bitsOf 0xFF 8) (bitsOf 0xFF 8) = .ok (true, bitsOf 0xFE 8) ∧
    xorWithCarry (bitsOf 0xFF 8) (bitsOf 0x1 4) = .error .invalidWidth := by decide +kernel
/-- V4.28, V4.30, V4.32. -/
theorem test_shift :
    cyclicShiftLeft (bitsOf 0b1001 4) 5 = bitsOf 0b0011 4 ∧
    cyclicShiftLeft (bitsOf 0xF000000 28) 2 = bitsOf 0xC000003 28 ∧ cyclicShiftLeft [] 3 = [] := by decide +kernel
/-- V4.33, V4.36, V4.37. -/
theorem test_bytes :
    bytesToBits [0x80#8, 0x01#8] = bitsOf 0x8001 16 ∧ bitsToBytes (bitsOf 0x8001 16) = .ok [0x80#8, 0x01#8] ∧
    bitsToBytes (bitsOf 0b101 3) = .error .invalidWidth := by decide +kernel

/-! ### The cipher's functions: V5 to V8 -/

/-- V5.1, first and last round key of the DES16 example. -/
theorem test_derive_des16 :
    (derive des16 [0x13#8, 0x34#8, 0x57#8, 0x79#8, 0x9B#8, 0xBC#8, 0xDF#8, 0xF1#8]).map
        (fun rk => (rk.length, rk[0]?, rk[15]?)) =
      .ok (16, some (bitsOf 0x1B02EFFC7072 48), some (bitsOf 0xCB3D8B0E17F5 48)) := by decide +kernel
/-- V5.3: a 7-byte key fails. -/
theorem test_derive_short : derive Config.t32 (secretK.take 7) = .error .invalidKey := by decide +kernel
/-- V6.1 and V6.2. -/
theorem test_sub :
    sub des16 0 (bitsOf 0b011011 6) = .ok (bitsOf 0b0101 4) ∧ sub des16 7 (bitsOf 0b100111 6) = .ok (bitsOf 0b0111 4) ∧
    sub des16 0 (bitsOf 0b100000 6) = .ok (bitsOf 0b0100 4) ∧ sub des16 0 (bitsOf 0b000001 6) = .ok (bitsOf 0b0000 4) ∧
    sub g4 2 (bitsOf 0b1100 4) = .ok (bitsOf 0b0011 4) := by decide +kernel
/-- V6.3 and V6.4. -/
theorem test_f :
    feistelF des16 (bitsOf 0xF0AAF0AA 32) (bitsOf 0x1B02EFFC7072 48) = .ok (bitsOf 0x234AA9BB 32) ∧
    feistelF g4 (bitsOf 0x89ABCDEF 32) (bitsOf 0x3265C9B2 32) = .ok (bitsOf 0xFBD5C719 32) := by decide +kernel
/-- V6.5. -/
theorem test_round :
    round des16 (bitsOf 0xCC00CCFF 32) (bitsOf 0xF0AAF0AA 32) (bitsOf 0x1B02EFFC7072 48) =
      .ok (bitsOf 0xF0AAF0AA 32, bitsOf 0xEF4A6544 32) := by decide +kernel
/-- V7.1: the published DES example. -/
theorem test_crypt_des16 :
    cryptBlock des16 [0x01#8, 0x23#8, 0x45#8, 0x67#8, 0x89#8, 0xAB#8, 0xCD#8, 0xEF#8]
        (keysOf des16 [0x13#8, 0x34#8, 0x57#8, 0x79#8, 0x9B#8, 0xBC#8, 0xDF#8, 0xF1#8]) .encrypt =
      .ok [0x85#8, 0xE8#8, 0x13#8, 0x54#8, 0x0F#8, 0x0A#8, 0xB4#8, 0x05#8] := by decide +kernel
/-- V7.6: G4, no `IP` and no `FP`. -/
theorem test_crypt_g4 :
    cryptBlock g4 [0x01#8, 0x23#8, 0x45#8, 0x67#8, 0x89#8, 0xAB#8, 0xCD#8, 0xEF#8] (keysOf g4 k4) .encrypt =
      .ok [0xA1#8, 0xD1#8, 0xDC#8, 0x9E#8, 0xC6#8, 0x41#8, 0xCD#8, 0xD9#8] := by decide +kernel
/-- V8.1: lengths 3, 7 and 8. -/
theorem test_pad :
    pad [0x61#8, 0x62#8, 0x63#8] = [0x61#8, 0x62#8, 0x63#8, 5#8, 5#8, 5#8, 5#8, 5#8] ∧
    pad (hello.take 7) = hello.take 7 ++ [1#8] ∧ pad hello = hello ++ List.replicate 8 8#8 := by decide
/-- V8.2: only the last byte is looked at. -/
theorem test_strip :
    strip [0x41#8, 0x42#8, 0x43#8, 0x44#8, 0x45#8, 1#8, 2#8, 3#8] = ([0x41#8, 0x42#8, 0x43#8, 0x44#8, 0x45#8], false) ∧
    strip (hello.take 7 ++ [8#8]) = ([], false) ∧ strip (hello.take 7 ++ [0#8]) = (hello.take 7 ++ [0#8], true) ∧
    strip (hello.take 7 ++ [9#8]) = (hello.take 7 ++ [9#8], true) ∧ strip [] = ([], true) := by decide
/-! ### The commands, at most two each: V5.2, V7.10, V8.3, V8.5, V8.8, V9.1 -/

/-- V9.2: NOP leaves `ERR`. -/
theorem test_nop : statusAfterWord { State.reset with err := 6#4, esticky := 0x40#8 } 0 = some 0x4060#32 := by decide +kernel
/-- V9.1: RST leaves STATUS 0, from a halted state. -/
theorem test_rst : statusAfterWord haltedState 1 = some 0#32 := by decide +kernel
/-- V5.2: the round keys that KLOAD derives. -/
theorem test_kload :
    (nextState? (exec .kload (staged 8))).map (fun t => (t.statusWord, t.rk)) = some (2#32, secretRk ++ secretRk) := by
  decide +kernel
/-- V9.1: `KLEN` 7 and 65. -/
theorem test_kload_faults :
    statusAfter .kload (staged 7) = some 0x210#32 ∧ statusAfter .kload (staged 65) = some 0x8070#32 := by decide +kernel
/-- V9.1: KCLR clears `KEY_VALID`. -/
theorem test_kclr : statusAfterWord { keyed [] with esticky := 0x08#8 } 3 = some 0x800#32 := by decide +kernel
/-- V7.10. -/
theorem test_encb : outcome .encb (keyed hello) = some (2#32, 8#32, helloEnc) := by decide +kernel
/-- V7.10. -/
theorem test_encb_faults :
    statusAfter .encb (keyed (hello.take 7)) = some 0x832#32 ∧ statusAfter .encb (unkeyed hello) = some 0x4060#32 := by
  decide +kernel
/-- V7.10. -/
theorem test_decb : outcome .decb (keyed helloEnc) = some (2#32, 8#32, hello) := by decide +kernel
/-- V7.10. -/
theorem test_decb_faults :
    statusAfter .decb (keyed (hello ++ hello)) = some 0x832#32 ∧
    statusAfter .decb (unkeyed (hello.take 7)) = some 0x4060#32 := by decide +kernel
/-- V8.3 (empty message), V8.8. -/
theorem test_encm :
    outcome .encm (keyed []) = some (2#32, 8#32, padEnc) ∧
    statusAfter .encm { keyed [] with mlen := 65#32 } = some 0x8072#32 := by decide +kernel
/-- V8.5: a plaintext that ends in 0 is reported in `BADPAD`, and OLEN counts all of it. -/
theorem test_decm :
    outcome .decm (keyed [0x6F#8, 0xCA#8, 0x69#8, 0x58#8, 0x8B#8, 0x4E#8, 0xAB#8, 0x07#8]) =
      some (0xA#32, 8#32, [0x41#8, 0x42#8, 0x43#8, 0x44#8, 0x45#8, 0x46#8, 0x47#8, 0x00#8]) := by decide +kernel
/-- V8.8, V9.1: `MLEN` 12, 68 and 0. -/
theorem test_decm_edges :
    statusAfter .decm { keyed [] with mlen := 12#32 } = some 0x832#32 ∧
    statusAfter .decm { keyed [] with mlen := 68#32 } = some 0x8072#32 ∧
    outcome .decm (keyed []) = some (0xA#32, 0#32, []) := by decide +kernel
/-- V9.1: a reserved word. -/
theorem test_reserved : statusAfterWord State.reset 8 = some 0x1044#32 := by decide +kernel
/-- V9.3: `wr CMD, 4` while halted is ignored. -/
theorem test_halted : statusAfterWord haltedState 4 = some 0x1044#32 := by decide +kernel

/-! ### Host actions: V9.3 -/

theorem test_read_registers :
    replyOf State.reset (.readReg 0) = some [.reg 0#32] ∧ replyOf State.reset (.readReg 5) = some [.reg 0x00081620#32] ∧
    replyOf (State.resetWith g4) (.readReg 5) = some [.reg 0x00200420#32] ∧
    replyOf State.reset (.readReg 100) = some [.reg 0#32] := by decide +kernel
theorem test_read_buffers :
    replyOf (staged 8) (.readMem .keymem 0) = some [.byte 0#8] ∧
    replyOf (keyed hello) (.readMem .inmem 7) = some [.byte 0x6F#8] ∧
    replyOf State.reset (.readMem .inmem 64) = some [.byte 0#8] ∧
    replyOf State.reset (.readMem .outmem 72) = some [.byte 0#8] := by decide +kernel
theorem test_writes :
    (nextState? (step { State.reset with host := [.writeMem .inmem 63 0xAB#8] })).map State.inmem =
      some [(63, 0xAB#8)] ∧
    (nextState? (step { State.reset with host := [.writeMem .inmem 64 1#8] })).map State.inmem = some [] ∧
    (nextState? (step { State.reset with host := [.writeMem .outmem 0 0xAB#8] })).map State.outmem = some [] ∧
    (nextState? (step { State.reset with host := [.writeReg 2 0xFFFFFFFF#32] })).map State.klen = some 0xFFFFFFFF#32 := by
  decide +kernel
/-- 30_encoding.md R77: what `key "secret_k"` expands to at its ends. -/
theorem test_keyScript :
    (keyScript secretK).length = 9 ∧ (keyScript secretK)[0]? = some (.writeMem .keymem 0 0x73#8) ∧
    (keyScript secretK)[8]? = some (.writeReg 2 8#32) := by decide +kernel

/-! ### Witnesses: for every obligation with hypotheses, inputs that meet them all

Each is a concrete state and operands; where a statement has clauses, one for each, at the ends of its range. -/

theorem witness_shaped : RoundKeysShaped Config.t32 (secretRk ++ secretRk) := by decide +kernel

theorem witness_decodeEncodeAgree : Instr.decm.WellFormed ∧ decode 7#32 = .ok .decm := by decide

theorem witness_reservedWordsAreThoseFromEight : 8 ≤ (8#32).toNat ∧ (7#32).toNat < 8 := by decide

theorem witness_stepRunsDecodedCommand : ∃ (s : State) (rest : List HostAction),
    s.host = .writeReg 0 7#32 :: rest ∧ s.busy = false ∧ decode 7#32 = .ok .decm ∧ Instr.decm.WellFormed :=
  ⟨{ State.reset with host := [.writeReg 0 7#32] }, [], rfl, rfl, by decide, trivial⟩

theorem witness_reservedWordPanics : ∃ (s : State) (rest : List HostAction),
    s.host = .writeReg 0 8#32 :: rest ∧ s.busy = false ∧ s.halt = false ∧ 8 ≤ (8#32).toNat :=
  ⟨{ State.reset with host := [.writeReg 0 8#32] }, [], rfl, rfl, rfl, by decide⟩

theorem witness_haltedIgnoresAllButRst : ∀ w ∈ [0#32, 1#32, 2#32], ∃ (s : State) (rest : List HostAction),
    s.host = .writeReg 0 w :: rest ∧ s.busy = false ∧ s.halt = true := fun w _ =>
  ⟨{ haltedState with host := [.writeReg 0 w] }, [], rfl, rfl, rfl⟩

theorem witness_idleHoldsState : State.reset.host = [] := rfl

theorem witness_busyNeverOutlastsStep : State.reset.busy = false ∧ step State.reset = .next State.reset := ⟨rfl, rfl⟩

theorem witness_registerWritesStoreLengths : ∀ n ∈ [1, 2, 3, 4], ∃ (s : State) (rest : List HostAction),
    s.host = .writeReg n 5#32 :: rest ∧ s.busy = false ∧ n ≠ 0 := fun n hn =>
  ⟨{ State.reset with host := [.writeReg n 5#32] }, [], rfl, rfl, by rintro rfl; simp at hn⟩

theorem witness_registerReadsReply : ∀ n ∈ [0, 1, 2, 3, 4, 5, 6], ∃ (s : State) (rest : List HostAction),
    s.host = .readReg n :: rest ∧ s.busy = false := fun n _ =>
  ⟨{ State.reset with host := [.readReg n] }, [], rfl, rfl⟩

/-- The last byte of each writable buffer, the first offset beyond it, and OUTMEM. -/
theorem witness_bufferWritesStoreOneByte : ∀ c ∈ [(Space.keymem, 63), (.inmem, 63), (.keymem, 64), (.inmem, 64), (.outmem, 0)],
    ∃ (s : State) (rest : List HostAction), s.host = .writeMem c.1 c.2 1#8 :: rest ∧ s.busy = false ∧
      ((c.1 ≠ .outmem ∧ c.2 < (if c.1 = .keymem then s.cfg.keyCap else s.cfg.msgCap)) ∨
       (c.1 = .outmem ∨ (if c.1 = .keymem then s.cfg.keyCap else s.cfg.msgCap) ≤ c.2)) := by
  intro c hc
  refine ⟨{ State.reset with host := [.writeMem c.1 c.2 1#8] }, [], rfl, rfl, ?_⟩
  revert c
  decide +kernel

theorem witness_bufferReadsReply : ∀ c ∈ [(Space.keymem, 0), (.inmem, 63), (.inmem, 64), (.outmem, 71), (.outmem, 72)],
    ∃ (s : State) (rest : List HostAction), s.host = .readMem c.1 c.2 :: rest ∧ s.busy = false := fun c _ =>
  ⟨{ State.reset with host := [.readMem c.1 c.2] }, [], rfl, rfl⟩

theorem witness_hostResetEffect : ∃ (s : State) (rest : List HostAction), s.host = .reset :: rest :=
  ⟨{ haltedState with host := [.reset] }, [], rfl⟩

theorem witness_busyIgnoresWrites :
    ∀ a ∈ [HostAction.writeReg 0 4#32, .writeMem .inmem 0 1#8, .readReg 1, .readReg 2, .readMem .outmem 0],
    ∃ (s : State) (rest : List HostAction), s.host = a :: rest ∧ s.busy = true := fun a _ =>
  ⟨{ State.reset with host := [a], busy := true }, [], rfl, rfl⟩

/-- Two different keys staged and loaded, the same reads. -/
theorem witness_hostActionsRevealNoKey : ∃ (s t s' t' : State) (a : HostAction) (rest : List HostAction),
    s.host = a :: rest ∧ (∀ w, a ≠ .writeReg 0 w) ∧ s.key ≠ t.key ∧
    t = { s with key := t.key, rk := t.rk, keymem := t.keymem, l := t.l, r := t.r, c := t.c, d := t.d,
                 rc := t.rc, bi := t.bi } ∧
    step s = .next s' ∧ step t = .next t' :=
  ⟨{ keyed hello with host := [.readMem .inmem 0] }, { keyed hello with host := [.readMem .inmem 0], key := [], rk := [] },
    _, _, .readMem .inmem 0, [], rfl, nofun, by decide +kernel, rfl, rfl, rfl⟩

theorem witness_cfg0Fields : Config.t32.InRange ∧ { g4 with keyBytes := 8 }.InRange := by decide +kernel

theorem witness_kclrEffect : (keyed []).halt = false := rfl

/-- `KLEN` at 65 (beyond `KEY_CAP`), 7, 8 and 64. -/
theorem witness_kloadEffect :
    (∀ n, (staged n).cfg.WF ∧ (staged n).halt = false) ∧ (staged 65).cfg.keyCap < (staged 65).klen.toNat ∧
    (staged 7).klen.toNat < (staged 7).cfg.keyBytes ∧
    ((staged 8).cfg.keyBytes ≤ (staged 8).klen.toNat ∧ (staged 8).klen.toNat ≤ (staged 8).cfg.keyCap) ∧
    ((staged 64).cfg.keyBytes ≤ (staged 64).klen.toNat ∧ (staged 64).klen.toNat ≤ (staged 64).cfg.keyCap) :=
  ⟨fun _ => ⟨test_wf_t32, rfl⟩, by decide, by decide, by decide, by decide⟩

/-- For ENCB and DECB: no key; `MLEN` 7 and 9; `MLEN` 8. -/
theorem witness_blockCommandEffect :
    (∀ m, (keyed m).cfg.WF ∧ RoundKeysShaped (keyed m).cfg (keyed m).rk ∧ (keyed m).halt = false ∧
      (keyed m).keyValid = true) ∧
    ({ keyed hello with keyValid := false } : State).keyValid = false ∧
    (keyed (hello.take 7)).mlen ≠ 8#32 ∧ (keyed (hello ++ [0#8])).mlen ≠ 8#32 ∧ (keyed hello).mlen = 8#32 :=
  ⟨fun _ => ⟨test_wf_t32, witness_shaped, rfl, rfl⟩, rfl, by decide, by decide, by decide⟩

/-- For ENCM and DECM: no key; `MLEN` 65; `MLEN` 63; `MLEN` 0 and 64. -/
theorem witness_messageCommandEffect :
    (∀ n, ({ keyed [] with mlen := n } : State).cfg.WF ∧
      RoundKeysShaped ({ keyed [] with mlen := n } : State).cfg ({ keyed [] with mlen := n } : State).rk ∧
      ({ keyed [] with mlen := n } : State).halt = false ∧ ({ keyed [] with mlen := n } : State).keyValid = true) ∧
    ({ keyed [] with keyValid := false } : State).keyValid = false ∧
    (keyed []).cfg.msgCap < (65#32).toNat ∧
    ((63#32).toNat ≤ (keyed []).cfg.msgCap ∧ (63#32).toNat % 8 ≠ 0) ∧
    ((64#32).toNat ≤ (keyed []).cfg.msgCap ∧ (64#32).toNat % 8 = 0) ∧
    ((0#32).toNat ≤ (keyed []).cfg.msgCap ∧ (0#32).toNat % 8 = 0) :=
  ⟨fun _ => ⟨test_wf_t32, witness_shaped, rfl, rfl⟩, rfl, by decide, by decide, by decide, by decide⟩

theorem witness_commandsNeverPanic : ∃ t : State, (keyed hello).cfg.WF ∧
    RoundKeysShaped (keyed hello).cfg (keyed hello).rk ∧ (keyed hello).halt = false ∧
    (keyed hello).err ∉ [2#4, 4#4, 5#4] ∧ exec .encb (keyed hello) = .next t := by
  obtain ⟨t, ht⟩ := exec_answers .encb (keyed hello)
  exact ⟨t, test_wf_t32, witness_shaped, rfl, by decide, ht⟩

theorem witness_faultsArePrecise : ∃ t : State, (unkeyed hello).halt = false ∧ Instr.encb ≠ .nop ∧
    exec .encb (unkeyed hello) = .next t ∧ t.err ≠ 0#4 :=
  ⟨(unkeyed hello).raise .noKey, rfl, by decide, rfl, by decide⟩

theorem witness_dataCommandsKeepInstance : ∀ i ∈ [Instr.nop, .encb, .decb, .encm, .decm],
    ∃ t, exec i (keyed hello) = .next t := fun i _ => exec_answers i _

theorem witness_hostWritesKeepInstance : ∃ (s t : State) (a : HostAction) (rest : List HostAction), s.host = a :: rest ∧
    a ≠ .reset ∧ (∀ w, a ≠ .writeReg 0 w) ∧ step s = .next t :=
  ⟨{ keyed hello with host := [.writeMem .keymem 0 1#8] }, _, .writeMem .keymem 0 1#8, [], rfl, nofun, nofun, rfl⟩

theorem witness_stickyBitsStay : ∃ (s t : State) (a : HostAction) (rest : List HostAction), s.host = a :: rest ∧
    a ≠ .reset ∧ a ≠ .writeReg 0 1#32 ∧ step s = .next t ∧ s.esticky.getLsbD 4 = true :=
  ⟨{ haltedState with host := [.writeReg 0 4#32] }, _, .writeReg 0 4#32, [], rfl, nofun, by decide, rfl, by decide⟩

theorem witness_configurationIsConstant : ∃ s t : State, step s = .next t ∧ s.cfg = Config.t32 :=
  ⟨{ keyed hello with host := [.reset] }, _, rfl, rfl⟩

/-- A state that is not the reset state: G4, halted, with bytes in all three buffers. -/
theorem witness_stepKeepsInvariant : ∃ s t : State, s.Inv ∧ step s = .next t := by
  refine ⟨{ State.resetWith g4 with
    halt := true, err := 4#4, esticky := 0x10#8, keymem := [(63, 1#8)], inmem := [(0, 2#8), (63, 3#8)],
    outmem := [(0, 4#8)], olen := 1#32, host := [.writeReg 0 4#32] }, _, ?_, rfl⟩
  constructor
  case output =>
    intro a
    cases a <;> simp [State.written, State.mem, Memory.get?]
  case config => exact test_wf_g4
  all_goals decide +kernel

/-- Entries in range, up to the last; an entry equal to the width. -/
theorem witness_permuteSelectsBits :
    (∀ x ∈ [3, 0, 0], x < (bitsOf 0b1000 4).length) ∧ (∃ x ∈ [4], (bitsOf 0b1000 4).length ≤ x) := by decide

theorem witness_inverseTablesCancel : ∃ (v : Bits) (first second : List Nat), first.length = v.length ∧
    second.length = v.length ∧ (∀ x ∈ first, x < v.length) ∧ (∀ x ∈ second, x < v.length) ∧
    ∀ i < v.length, first[second.getD i 0]? = some i :=
  ⟨bitsOf 0b100 3, [1, 2, 0], [2, 0, 1], by decide⟩

theorem witness_splitAndMergeInvert :
    (0 = 0 ∨ (bitsOf 0xAB 8).length % 0 ≠ 0) ∧ ((2 : Nat) = 0 ∨ (bitsOf 0b101 3).length % 2 ≠ 0) ∧
    ((8 : Nat) ≠ 0 ∧ (bitsOf 0xAB 8).length % 8 = 0) ∧
    ([bitsOf 0xA 4, bitsOf 0xB 4] ≠ [] ∧ ∀ x ∈ [bitsOf 0xA 4, bitsOf 0xB 4], x.length = 4) := by decide

/-- For the XOR combiner and `xor_with_carry`. -/
theorem witness_xorCombines :
    (bitsOf 0xFF 8).length ≠ (bitsOf 0xF 4).length ∧ (bitsOf 0xFF 8).length = (bitsOf 0x01 8).length ∧
    (bitsOf 0xFF 8)[7]? = some true ∧ (bitsOf 0x01 8)[0]? = some false := by decide

theorem witness_cyclicShiftRotates : 3 < (bitsOf 0b1001 4).length := by decide

theorem witness_bytesAndBitsInvert :
    [0x80#8, 0x01#8][1]? = some 0x01#8 ∧ (7 : Nat) < 8 ∧ (bitsOf 0b101 3).length % 8 ≠ 0 ∧
    (bitsOf 0x8001 16).length % 8 = 0 := by decide

/-- A key one byte too short, a key of the right length, and one that is too long and starts alike. -/
theorem witness_deriveGivesRoundKeys : Config.t32.WF ∧ (secretK.take 7).length < Config.t32.keyBytes ∧
    Config.t32.keyBytes ≤ secretK.length ∧
    (secretK ++ [0#8]).take Config.t32.keyBytes = secretK.take Config.t32.keyBytes :=
  ⟨test_wf_t32, by decide, by decide, by decide⟩

/-- Rounds 0 and 16 of T32 have one key (V5.2). -/
theorem witness_keyScheduleClosedForm :
    Config.t32.WF ∧ (bytesToBits secretK).length = Config.t32.keyBits ∧ 31 < Config.t32.rounds ∧ 0 ≤ 16 ∧
    ((Config.t32.shift.take (16 + 1)).sum - (Config.t32.shift.take (0 + 1)).sum) % (Config.t32.cdBits / 2) = 0 :=
  ⟨test_wf_t32, by decide, by decide, by decide, by decide⟩

theorem witness_subIsFlatLookup : g4.WF ∧ 7 < 8 ∧ (bitsOf 0b1101 4).length = g4.g := ⟨test_wf_g4, by decide, by decide⟩

/-- For `F` and for a round. -/
theorem witness_round : g4.WF ∧ (bitsOf 0x01234567 32).length = 32 ∧ (bitsOf 0x89ABCDEF 32).length = 32 ∧
    (bitsOf 0x3265C9B2 32).length = g4.rkBits := ⟨test_wf_g4, by decide, by decide, by decide⟩

/-- For every statement over a configuration and a round-key file: a Block, a sequence that is no Block and ends inside
one, and one of whole Blocks. -/
theorem witness_cipher : Config.t32.WF ∧ RoundKeysShaped Config.t32 (secretRk ++ secretRk) ∧
    (secretRk ++ secretRk).length = Config.t32.rounds ∧ hello.length = 8 ∧
    (hello.take 7).length ≠ 8 ∧ (hello.take 7).length % 8 ≠ 0 ∧ (hello ++ hello).length = 8 * 2 ∧ 1 < 2 ∧
    hello.length % 8 = 0 ∧ (hello ++ hello).length % 8 = 0 :=
  ⟨test_wf_t32, witness_shaped, by decide, by decide, by decide, by decide, by decide, by decide, by decide, by decide⟩

theorem witness_stripRemovesPadding :
    (1 ≤ (1#8).toNat ∧ (1#8).toNat ≤ 8) ∧ (1 ≤ (8#8).toNat ∧ (8#8).toNat ≤ 8) ∧
    ((0#8).toNat = 0 ∨ 8 < (0#8).toNat) ∧ ((9#8).toNat = 0 ∨ 8 < (9#8).toNat) := by decide

/-- A message of 56 bytes, the longest whose ciphertext fits INMEM again. -/
theorem witness_commandRoundTrip : ∃ s t u : State, s.cfg.WF ∧ RoundKeysShaped s.cfg s.rk ∧ s.halt = false ∧
    s.keyValid = true ∧ s.mlen.toNat + 8 ≤ s.cfg.msgCap ∧ exec .encm s = .next t ∧
    u.cfg = t.cfg ∧ u.rk = t.rk ∧ u.keyValid = t.keyValid ∧ u.halt = t.halt ∧ u.mlen = t.olen ∧
    (∀ k < t.olen.toNat, u.byteAt .inmem k = t.byteAt .outmem k) := by
  obtain ⟨t, ht⟩ := exec_answers .encm { keyed [] with mlen := 56#32 }
  refine ⟨{ keyed [] with mlen := 56#32 }, t,
    { t with inmem := Memory.storeBytes [] 0 (t.memRead .outmem 0 t.olen.toNat), mlen := t.olen },
    test_wf_t32, witness_shaped, rfl, rfl, by decide, ht, rfl, rfl, rfl, rfl, rfl, ?_⟩
  intro k hk
  have h : Memory.get? (Memory.storeBytes [] 0 (t.memRead .outmem 0 t.olen.toNat)) k = some (t.byteAt .outmem k) := by
    rw [get?_storeBytes, if_pos (by simpa using hk)]
    rw [memRead_getElem?, if_pos (by omega)]
    simp
  simp only [State.byteAt, State.mem] at h ⊢
  rw [h]
  rfl

end Sys2Proof.Tests
end

section
/-!
PROOFS. Nothing a command, a host action or a step does writes the configuration (00_scope.md R2, 10_state.md R30).
-/

namespace Sys2Proof.Machine

/-- No command, RST included, touches the configuration or the host's side (10_state.md R30, log 19). A command's end,
`complete` or `raise`, writes neither, so the frame of its body or of the fault's base state is the frame of the whole. -/
theorem exec_surroundings {i : Instr} {s t : State} (h : exec i s = .next t) : SameSurroundings s t := by
  rcases exec_cases h with ⟨_, _, rfl⟩ | ⟨_, rfl⟩ | ⟨_, _, _, f, _, rfl⟩ | ⟨hn, hr, _, u, hu, rfl⟩
  · exact ⟨rfl, rfl, rfl⟩
  · exact ⟨rfl, rfl, rfl⟩
  · obtain ⟨frame, _⟩ := faultBase_frame i s
    exact frame
  · obtain ⟨frame, _⟩ := commandBody_frame hn hr hu
    exact frame

/-- Nor does a write of CMD, whether the word is a command's or reserved. -/
theorem writeCmd_surroundings {w : Word} {s t : State} (h : writeCmd w s = .next t) : SameSurroundings s t := by
  rcases writeCmd_cases h with ⟨i, u, _, hu, rfl⟩ | ⟨_, _, rfl⟩
  · exact (exec_surroundings hu :)
  · split <;> exact ⟨rfl, rfl, rfl⟩

theorem hostWriteMem_cfg (sp : Space) (a : Nat) (b : Byte) (s : State) : (hostWriteMem sp a b s).cfg = s.cfg := by
  rcases hostWriteMem_cases sp a b s with ⟨_, _, h⟩ | ⟨_, h⟩ <;> simp [h]

theorem actIdle_cfg {a : HostAction} {s t : State} (h : actIdle a s = .next t) : t.cfg = s.cfg := by
  rcases actIdle_cases h with ⟨w, _, hw⟩ | ⟨n, v, _, _, rfl | rfl | rfl⟩ | ⟨n, _, rfl⟩ | ⟨sp, o, b, _, rfl⟩ |
    ⟨sp, o, _, rfl⟩ | ⟨_, rfl⟩
  case inl => exact (writeCmd_surroundings hw).1
  case inr.inr.inr.inl => exact hostWriteMem_cfg sp o b s
  all_goals rfl

theorem actBusy_cfg {a : HostAction} {s t : State} (h : actBusy a s = .next t) : t.cfg = s.cfg := by
  rcases actBusy_cases h with rfl | ⟨_, rfl⟩ | ⟨_, rfl⟩ | ⟨_, rfl⟩ <;> rfl

/-- Settles O32: a step holds the state or performs one host action, and no host action writes the configuration. -/
theorem configurationIsConstant : Obligations.ConfigurationIsConstant := by
  intro s t h
  rcases step_cases h with ⟨_, rfl⟩ | ⟨a, rest, _, ⟨_, hact⟩ | ⟨_, hact⟩⟩
  · rfl
  · exact (actBusy_cfg hact :)
  · exact (actIdle_cfg hact :)

end Sys2Proof.Machine
end

section
/-!
PROOFS. The two registers made of fields (10_state.md R25, R29), the flag `BUSY` over a step (R23), and the state after
reset (R33).
-/

namespace Sys2Proof.Machine

/-! ### Registers made of fields -/

/-- A field of width `n` below a vector adds to the vector's value `2^n` times over. -/
theorem toNat_append_eq_add {m n : Nat} (x : BitVec m) (y : BitVec n) :
    (x ++ y).toNat = 2 ^ n * x.toNat + y.toNat := by
  rw [BitVec.toNat_append, ← Nat.shiftLeft_add_eq_or_of_lt y.isLt, Nat.shiftLeft_eq, Nat.mul_comm]

/-- Settles O17: the value of each append is the sum of its fields' values at their positions. -/
theorem statusFields : Obligations.StatusFields := by
  intro s
  simp only [State.statusWord, toNat_append_eq_add, BitVec.toNat_ofBool, BitVec.toNat_ofNat]
  omega

/-- CFG0 of every configuration whose values fit their fields (10_state.md R29). -/
theorem cfg0Word_toNat {c : Cfg} (hr : c.rounds < 2 ^ 8) (hg : c.g < 2 ^ 4) (hk : c.keyBytes < 2 ^ 8) :
    (cfg0Word c).toNat = c.rounds + 2 ^ 8 * c.g + 2 ^ 12 * c.ipfp.isSome.toNat + 2 ^ 16 * c.keyBytes := by
  simp only [cfg0Word, toNat_append_eq_add, BitVec.toNat_ofBool, BitVec.toNat_ofNat, Nat.mod_eq_of_lt hr,
    Nat.mod_eq_of_lt hg, Nat.mod_eq_of_lt hk]
  omega

/-- Settles O18: the values 00_scope.md R6 allows fit the fields of CFG0. -/
theorem cfg0Fields : Obligations.Cfg0Fields := by
  rintro c ⟨hrounds, hg, hkeyBytes⟩
  exact cfg0Word_toNat (by omega) (by omega) (by omega)

/-! ### BUSY -/

@[simp] theorem hostWriteMem_busy (sp : Space) (a : Nat) (b : Byte) (s : State) :
    (hostWriteMem sp a b s).busy = s.busy := by
  rcases hostWriteMem_cases sp a b s with ⟨_, _, h⟩ | ⟨_, h⟩ <;> simp [h]

/-- The write of CMD ends with `BUSY = 0`, whatever the word and the state (10_state.md R23). -/
theorem writeCmd_busy {w : Word} {s t : State} (h : writeCmd w s = .next t) : t.busy = false := by
  rcases writeCmd_cases h with ⟨_, u, _, _, rfl⟩ | ⟨_, _, rfl⟩ <;> exact State.endCommand_busy _

/-- Only the write of CMD sets `BUSY`, and it clears it again. -/
theorem actIdle_busy {a : HostAction} {s t : State} (hb : s.busy = false) (h : actIdle a s = .next t) :
    t.busy = false := by
  rcases actIdle_cases h with ⟨w, _, hw⟩ | ⟨n, v, _, _, rfl | rfl | rfl⟩ | ⟨n, _, rfl⟩ | ⟨sp, o, b, _, rfl⟩ |
    ⟨sp, o, _, rfl⟩ | ⟨_, rfl⟩
  case inl => exact writeCmd_busy hw
  case inr.inr.inr.inl => rwa [hostWriteMem_busy]
  case inr.inr.inr.inr.inr => exact State.resetAll_busy s
  all_goals exact hb

/-- Settles O9: the step holds the state or performs one host action with `BUSY` at 0, and that leaves `BUSY` at 0. -/
theorem busyNeverOutlastsStep : Obligations.BusyNeverOutlastsStep := by
  intro s t hb h
  rcases step_cases h with ⟨_, rfl⟩ | ⟨a, rest, _, ⟨hbusy, _⟩ | ⟨_, hact⟩⟩
  · exact hb
  · simp [hb] at hbusy
  · exact actIdle_busy (s := { s with host := rest }) hb hact

/-! ### Reset -/

/-- The state after reset meets the invariant over every buildable configuration: all its buffers are empty, its flags and
registers 0, its vectors zeros of their widths. -/
theorem resetWith_inv {c : Cfg} (wf : c.WF) : (State.resetWith c).Inv where
  config := wf
  keymem_wf := reset_memories_wf c .keymem
  inmem_wf := reset_memories_wf c .inmem
  outmem_wf := reset_memories_wf c .outmem
  keymem_below := rfl
  inmem_below := rfl
  output := fun _ => rfl
  output_fits := Nat.zero_le _
  cipher := nofun
  no_cipher := fun _ => ⟨rfl, rfl⟩
  err_code := Nat.zero_le _
  err_sticky := fun h => absurd rfl h
  sticky_zero := BitVec.getLsbD_zero
  halted := by simp [State.resetWith]
  l_width := List.length_replicate
  r_width := List.length_replicate
  c_width := List.length_replicate
  d_width := List.length_replicate
  rc_bound := Nat.zero_le _
  bi_bound := Nat.zero_le _

/-- The spec's configuration T32 is a buildable FCC (00_scope.md R8, 95_test_vectors.md section 2.2). -/
theorem t32_wf : Config.t32.WF := by
  refine ⟨?W1, ?W2, ?W3, ?W4, ?W5, ?W6, ?W7, ?W8, ?W9, ?W10⟩ <;> decide

/-- Settles O33: `State.reset` is the reset state of T32, which is buildable. -/
theorem resetMeetsInvariant : Obligations.ResetMeetsInvariant := resetWith_inv t32_wf

end Sys2Proof.Machine
end

section
/-!
PROOFS. The decoder and the encoder undo each other and reject exactly the reserved words (30_encoding.md R70, R72, R75),
and what a write of CMD makes of a command's word, a reserved word, and any word while halted (R74, 60_exceptions.md R194).
-/

namespace Sys2Proof.Machine

/-! ### The fields of a word -/

theorem fieldZero_toNat (w : Word) : (fieldZero w).toNat = w.toNat / 8 := by
  simp only [fieldZero, BitVec.extractLsb'_toNat, Nat.shiftRight_eq_div_pow]
  omega

/-- `ZERO` is clear exactly in the words below 8 (30_encoding.md R75). -/
theorem fieldZero_eq_zero_iff (w : Word) : fieldZero w = 0#29 ↔ w.toNat < 8 := by
  rw [BitVec.toNat_eq, fieldZero_toNat, BitVec.toNat_ofNat]
  omega

/-- The fields `ZERO`, `UNIT`, `ACT` are the whole word (30_encoding.md R70). -/
theorem append_fields (w : Word) : fieldZero w ++ fieldUnit w ++ fieldAct w = w := by
  apply BitVec.eq_of_toNat_eq
  simp only [toNat_append_eq_add, fieldZero_toNat, fieldUnit, fieldAct, BitVec.extractLsb'_toNat,
    Nat.shiftRight_eq_div_pow]
  omega

theorem unitOf_commandOf : ∀ (unit : BitVec 2) (act : BitVec 1), unitOf (commandOf unit act) = unit := by decide

theorem actOf_commandOf : ∀ (unit : BitVec 2) (act : BitVec 1), actOf (commandOf unit act) = act := by decide

/-! ### Decoding and encoding -/

theorem decode_of_lt {w : Word} (h : w.toNat < 8) : decode w = .ok (commandOf (fieldUnit w) (fieldAct w)) :=
  if_pos ((fieldZero_eq_zero_iff w).2 h)

theorem decode_of_reserved {w : Word} (h : 8 ≤ w.toNat) : decode w = .error (.reservedWord w) :=
  if_neg (mt (fieldZero_eq_zero_iff w).1 (Nat.not_lt.2 h))

/-- The round trip of every command's word, from the eight commands' own (Laws/PerInstr). -/
theorem wordRoundTrip : ∀ i : Instr, Laws.WordRoundTrip.Statement i
  | .nop => Laws.WordRoundTrip.nop
  | .rst => Laws.WordRoundTrip.rst
  | .kload => Laws.WordRoundTrip.kload
  | .kclr => Laws.WordRoundTrip.kclr
  | .encb => Laws.WordRoundTrip.encb
  | .decb => Laws.WordRoundTrip.decb
  | .encm => Laws.WordRoundTrip.encm
  | .decm => Laws.WordRoundTrip.decm

@[simp] theorem decode_encode (i : Instr) : decode (encode i) = .ok i := (wordRoundTrip i trivial).1

/-- A word that decodes to a command is that command's encoding: its `ZERO` is clear, and the command keeps its `UNIT` and
`ACT`. -/
theorem eq_encode_of_decode {w : Word} {i : Instr} (h : decode w = .ok i) : w = encode i := by
  by_cases hw : w.toNat < 8
  · rw [decode_of_lt hw] at h
    cases h
    calc w = fieldZero w ++ fieldUnit w ++ fieldAct w := (append_fields w).symm
      _ = encode (commandOf (fieldUnit w) (fieldAct w)) := by
        rw [encode, unitOf_commandOf, actOf_commandOf, (fieldZero_eq_zero_iff w).2 hw]
  · rw [decode_of_reserved (Nat.not_lt.1 hw)] at h
    cases h

/-- Settles O2: the encoder rebuilds a decoded word from its fields, and the decoder reads them back. -/
theorem decodeEncodeAgree : Obligations.DecodeEncodeAgree := by
  intro i w _
  constructor
  · exact eq_encode_of_decode
  · rintro rfl
    exact decode_encode i

/-- Settles O3: the decoder tests `ZERO`, which is clear exactly below 8. -/
theorem reservedWordsAreThoseFromEight : Obligations.ReservedWordsAreThoseFromEight := by
  refine fun w => ⟨⟨fun h => ?_, decode_of_reserved⟩, fun hw => ⟨_, decode_of_lt hw⟩⟩
  by_contra hw
  rw [decode_of_lt (Nat.not_le.1 hw)] at h
  cases h

/-- Settles O1: the eight words of the table are the encodings of the eight commands. -/
theorem specWordsDecode : Obligations.SpecWordsDecode :=
  ⟨decode_encode .nop, decode_encode .rst, decode_encode .kload, decode_encode .kclr, decode_encode .encb,
    decode_encode .decb, decode_encode .encm, decode_encode .decm⟩

/-! ### The write of CMD -/

/-- A step whose host action writes `w` to CMD while `BUSY = 0` is the write of `w`, the action taken off. -/
theorem step_writeCmd {s : State} {w : Word} {rest : List HostAction} (h : s.host = .writeReg 0 w :: rest)
    (hb : s.busy = false) : step s = writeCmd w { s with host := rest } :=
  step_idle h hb

/-- Setting `BUSY` and clearing it again changes nothing in a state where it is clear. -/
theorem endCommand_beginCommand {s : State} (hb : s.busy = false) : s.beginCommand.endCommand = s := by
  cases s
  cases hb
  rfl

/-- With `HALT = 1` a command other than RST changes nothing (30_encoding.md R74). -/
theorem exec_of_halt {i : Instr} {s : State} (hi : i ≠ .rst) (hh : s.halt = true) : exec i s = .next s := by
  by_cases hn : i = .nop
  · subst hn
    rfl
  · rw [exec_eq_finish hn hi, unlessHalted_of_halt hh]

/-- With `HALT = 1` the write of any word but RST's changes nothing, the word a command's or reserved
(60_exceptions.md R194). -/
theorem writeCmd_of_halt {w : Word} {s : State} (hw : w ≠ encode .rst) (hb : s.busy = false) (hh : s.halt = true) :
    writeCmd w s = .next s := by
  cases hd : decode w with
  | ok i =>
    have hi : i ≠ .rst := fun hi => hw (hi ▸ eq_encode_of_decode hd)
    rw [writeCmd_ok hd, exec_of_halt (s := s.beginCommand) hi hh, mapNext_next, endCommand_beginCommand hb]
  | error e => rw [writeCmd_error hd, if_pos hh, endCommand_beginCommand hb]

/-- The write of RST's word resets the FCC in every state (45_control_and_host.md R176). -/
theorem writeCmd_rst (s : State) : writeCmd (encode .rst) s = .next s.resetAll :=
  writeCmd_ok (decode_encode .rst) s

/-- The reset state reads STATUS as 0 (10_state.md R33). -/
@[simp] theorem statusWord_resetAll (s : State) : s.resetAll.statusWord = 0#32 := by
  simp [State.statusWord]

/-- Settles O6: a halted FCC ignores every word but RST's, and the reset RST performs clears all the fields of STATUS. -/
theorem haltedIgnoresAllButRst : Obligations.HaltedIgnoresAllButRst := by
  intro s w rest h hb hh
  rw [step_writeCmd h hb]
  constructor
  · exact fun hw => writeCmd_of_halt hw hb hh
  · rintro rfl
    exact ⟨_, writeCmd_rst _, statusWord_resetAll _⟩

/-- Settles O4: the step is the write of CMD, which performs the command the word decodes to. -/
theorem stepRunsDecodedCommand : Obligations.StepRunsDecodedCommand := by
  intro s w i rest h hb hd _
  rw [step_writeCmd h hb]
  exact writeCmd_ok hd _

/-- What the fault of a reserved word writes in a running FCC: `ERR`, its `ESTICKY` bit and `HALT` (60_exceptions.md R193,
R194). -/
theorem raise_invalidAction {s : State} (hb : s.busy = false) :
    (s.beginCommand.raise .invalidAction).endCommand =
      { s with err := 4#4, esticky := s.esticky ||| 0x10#8, halt := true } := by
  cases s
  cases hb
  simp [State.endCommand, State.raise, State.beginCommand, FaultCode.errValue, FaultCode.stickyBit, FaultCode.code,
    FaultCode.isPanic]

/-- Settles O5: the decoder rejects the word, and a running FCC raises `InvalidAction`. -/
theorem reservedWordPanics : Obligations.ReservedWordPanics := by
  intro s w rest h hb hh hw
  rw [step_writeCmd h hb, writeCmd_error (decode_of_reserved hw), if_neg (by simp [hh]),
    raise_invalidAction (s := { s with host := rest }) hb]

end Sys2Proof.Machine
end

section
/-!
PROOFS. The bit-vector utilities (40_bitvector.md R91 to R99): which bit of the input each output bit is, the values they
add, and the laws by which they undo each other. Their total forms and failures are the laws of Sys2Proof/Laws/BitVector.
-/

namespace Sys2Proof.Machine

/-! ### permute -/

/-- Settles O35: on a table within the width `permute` is the map of the table's entries to the bits they name. -/
theorem permuteSelectsBits : Obligations.PermuteSelectsBits := by
  intro v table
  refine ⟨fun h => ⟨_, permute_ok h, by simp, ?_⟩, permute_error⟩
  intro i x hx
  have hlt : x < v.length := h x (List.mem_of_getElem? hx)
  simp [hx, hlt]

/-- Settles O36: bit `i` of the result is bit `T[i]` of the first permutation, which is bit `S[T[i]] = i` of the vector. -/
theorem inverseTablesCancel : Obligations.InverseTablesCancel := by
  intro v first second hlenFirst hlenSecond hfirst hsecond hinverse
  obtain ⟨w, hw, hlenW, hbitsW⟩ := (permuteSelectsBits v first).1 hfirst
  have hlen : w.length = v.length := hlenW.trans hlenFirst
  obtain ⟨u, hu, hlenU, hbitsU⟩ := (permuteSelectsBits w second).1 (by rwa [hlen])
  have huv : u = v := by
    refine List.ext_getElem? fun i => ?_
    by_cases hi : i < v.length
    · have hT : second[i]? = some (second.getD i 0) := by simp [hlenSecond, hi]
      rw [hbitsU i _ hT, hbitsW _ i (hinverse i hi)]
    · rw [List.getElem?_eq_none (by omega), List.getElem?_eq_none (by omega)]
  exact ⟨w, hw, huv ▸ hu⟩

/-! ### split and merge -/

/-- Settles O37: `merge` is the lists' concatenation, which the slices of equal width are cut from. -/
theorem splitAndMergeInvert : Obligations.SplitAndMergeInvert := by
  refine ⟨fun v k => ⟨split_error, ?_⟩, fun parts w hne hwidth => ?_, rfl, fun _ _ => rfl⟩
  · rintro ⟨hk, hdvd⟩
    have hlen : v.length = k * (v.length / k) := (Nat.mul_div_cancel' (Nat.dvd_of_mod_eq_zero hdvd)).symm
    exact ⟨_, split_ok hk hlen, slices_length _ _ _, slices_width _ _ _ hlen, slices_flatten _ _ _ hlen⟩
  · have hk : parts.length ≠ 0 := by simpa using hne
    rw [merge, split_ok hk (flatten_length_of_width w parts hwidth), slices_of_flatten w parts hwidth]

/-! ### xor -/

/-- Settles O38: `xor` combines the two vectors bit by bit, and the laws are those of the exclusive or of two bits. -/
theorem xorCombines : Obligations.XorCombines := by
  intro a b
  refine ⟨fun h => if_neg h, fun h => ?_⟩
  have hlen : (List.zipWith Bool.xor a b).length = a.length := by simp [h]
  refine ⟨_, xorBits_ok h, hlen, ?_, ?_, ?_, ?_⟩
  · intro i x y hx hy
    simp [List.getElem?_zipWith, hx, hy]
  · rw [xorBits_ok h.symm, zipWith_xor_comm]
  · rw [xorBits_ok (hlen.trans h), zipWith_xor_cancel a b h]
  · rw [xorBits_ok rfl, zipWith_xor_self]

/-! ### xor_with_carry -/

/-- Of a sum below `2 * m`, one comparison with `m` is the quotient by `m`. -/
theorem mul_toNat_le_add_mod {s m : Nat} (h : s < 2 * m) : m * (decide (m ≤ s)).toNat + s % m = s := by
  by_cases hm : m ≤ s
  · have hmod : s % m = s - m := by rw [Nat.mod_eq_sub_mod hm, Nat.mod_eq_of_lt (by omega)]
    simp [hm, hmod]
  · simp [hm, Nat.mod_eq_of_lt (Nat.lt_of_not_le hm)]

/-- Settles O39: two values below `2^n` have a sum below `2 * 2^n`, so the carry out is one bit. -/
theorem xorWithCarryAdds : Obligations.XorWithCarryAdds := by
  intro a b
  refine ⟨fun h => if_neg h, fun h => ⟨_, _, if_pos h, bitsOf_length _ _, ?_⟩⟩
  have ha : valOf a < 2 ^ a.length := valOf_lt a
  have hb : valOf b < 2 ^ a.length := h ▸ valOf_lt b
  rw [valOf_bitsOf]
  exact mul_toNat_le_add_mod (by omega)

/-! ### cyclic shift -/

/-- The rotation is the library's, also for the vector of width 0 (40_bitvector.md R97). -/
theorem cyclicShiftLeft_eq_rotate (v : Bits) (n : Nat) : cyclicShiftLeft v n = v.rotate n :=
  List.rotate_eq_drop_append_take_mod.symm

/-- Settles O40: the library's laws of `List.rotate`. -/
theorem cyclicShiftRotates : Obligations.CyclicShiftRotates := by
  intro v m n
  refine ⟨cyclicShiftLeft_length v n, fun i hi => ?_, ?_⟩
  · rw [cyclicShiftLeft_eq_rotate, List.getElem?_rotate hi]
  · simp only [cyclicShiftLeft_eq_rotate, List.rotate_rotate]

/-! ### bytes and bits -/

theorem bitsOf_getElem? {x n i : Nat} (h : i < n) : (bitsOf x n)[i]? = some (x.testBit (n - 1 - i)) := by
  simp [bitsOf, h]

/-- Bit `j` of a byte's bits is the one of weight `2^(7-j)` (40_bitvector.md R98). -/
theorem byteToBits_getElem? (b : Byte) {j : Nat} (h : j < 8) :
    (byteToBits b)[j]? = some (decide (b.toNat / 2 ^ (7 - j) % 2 = 1)) := by
  rw [byteToBits_eq_bitsOf, bitsOf_getElem? h, Nat.testBit_eq_decide_div_mod_eq]

/-- The bits of byte `k` stand from position `8k` on (40_bitvector.md R98). -/
theorem bytesToBits_getElem? {b : Byte} {j : Nat} (hj : j < 8) : ∀ {bytes : List Byte} {k : Nat}, bytes[k]? = some b →
    (bytesToBits bytes)[8 * k + j]? = (byteToBits b)[j]?
  | [], _, h => by simp at h
  | c :: bytes, 0, h => by
    obtain rfl : c = b := by simpa using h
    rw [bytesToBits_cons, Nat.mul_zero, Nat.zero_add, List.getElem?_append_left hj]
  | c :: bytes, k + 1, h => by
    have hsub : 8 * (k + 1) + j - 8 = 8 * k + j := by omega
    rw [bytesToBits_cons, List.getElem?_append_right (by simp; omega), byteToBits_length, hsub]
    exact bytesToBits_getElem? hj (by simpa using h)

/-- `bits_to_bytes` undoes `bytes_to_bits`: it succeeds on whole bytes, and its bytes have the bits it was given. -/
theorem bitsToBytes_bytesToBits (bytes : List Byte) : bitsToBytes (bytesToBits bytes) = .ok bytes := by
  obtain ⟨bytes', hok, -, hbits⟩ := bitsToBytes_ok (bytesToBits_length bytes)
  rw [hok, bytesToBits_injective hbits]

/-- Settles O41: the bits of each byte stand in order, and no two byte sequences have the same bits. -/
theorem bytesAndBitsInvert : Obligations.BytesAndBitsInvert := by
  refine ⟨fun bytes => ⟨bytesToBits_length bytes, fun k j b hb hj => ?_, bitsToBytes_bytesToBits bytes⟩,
    fun v => ⟨fun h => if_neg h, fun h => bitsToBytes_ok (by omega)⟩⟩
  rw [bytesToBits_getElem? hj hb, byteToBits_getElem? b hj]

end Sys2Proof.Machine
end

section
/-!
PROOFS. What each command, host action and step keeps of the invariant (`State.Inv`, 41_key_schedule.md R116): one lemma per
state operation, then per command body, host action and step.
-/

namespace Sys2Proof.Machine

/-! ### Free values of the working registers -/

@[simp] theorem freeBits_length (reg : Config.WorkReg) (draw width : Nat) : (freeBits reg draw width).length = width := by
  simp [freeBits]

theorem freeCounter_le (reg : Config.WorkReg) (draw bound : Nat) : freeCounter reg draw bound ≤ bound :=
  Nat.le_of_lt_succ (Nat.mod_lt _ (Nat.succ_pos bound))

/-! ### The sizes of keys, outputs and buffers -/

/-- W10: KEYMEM holds a key. -/
theorem keyBytes_le_keyCap {c : Cfg} (wf : c.WF) : c.keyBytes ≤ c.keyCap := by
  obtain ⟨_, _, _, _, _, _, _, _, _, hkey, _⟩ := wf
  exact hkey

/-- W10: `OLEN` can hold the size of OUTMEM. -/
theorem outmem_size_lt {c : Cfg} (wf : c.WF) : bufferSize c .outmem < 2 ^ 32 := by
  obtain ⟨_, _, _, _, _, _, _, _, _, _, _, _, hsize, _⟩ := wf
  exact hsize

section Outputs

variable {cfg : Cfg} {rk : List Bits} (wf : cfg.WF) (hrk : RoundKeysShaped cfg rk)
include wf hrk

theorem cryptBlock_length {tag : Action} {block o : List Byte} (hb : block.length = 8)
    (h : cryptBlock cfg block rk tag = .ok o) : o.length = 8 := by
  obtain ⟨o', ho', hlen⟩ := cryptBlock_ok wf hrk tag hb
  rwa [Except.ok.inj (h.symm.trans ho')]

theorem encMessage_length {m ct : List Byte} (h : encMessage cfg m rk = .ok ct) :
    ct.length = m.length + 8 - m.length % 8 := by
  obtain ⟨ct', hct', hlen⟩ := encMessage_ok wf hrk m
  rwa [Except.ok.inj (h.symm.trans hct')]

theorem decMessage_length_le {ct pt : List Byte} {bad : Bool} (h8 : ct.length % 8 = 0)
    (h : decMessage cfg ct rk = .ok (pt, bad)) : pt.length ≤ ct.length := by
  obtain ⟨pt', bad', hpt', hlen⟩ := decMessage_ok wf hrk h8
  obtain ⟨rfl, -⟩ : pt = pt' ∧ bad = bad' := by simpa using h.symm.trans hpt'
  exact hlen

end Outputs

namespace State.Inv

variable {s : State}

/-! ### What each state operation keeps -/

/-- The invariant says nothing of `BADPAD`, `BUSY`, `KLEN`, `MLEN` and the model's own fields. -/
theorem of_unconstrained (inv : s.Inv) (badpad busy : Bool) (klen mlen : Word) (host : List HostAction)
    (replies : List Reply) (draws bufEpoch outEpoch : Nat) :
    State.Inv { s with
      badpad := badpad, busy := busy, klen := klen, mlen := mlen, host := host, replies := replies
      draws := draws, bufEpoch := bufEpoch, outEpoch := outEpoch } :=
  { inv with }

theorem beginCommand (inv : s.Inv) : s.beginCommand.Inv := inv.of_unconstrained ..

theorem endCommand (inv : s.Inv) : s.endCommand.Inv := inv.of_unconstrained ..

/-- A reset leaves the reset state but for free values in the working registers, which have their widths and bounds. -/
theorem resetAll (inv : s.Inv) : s.resetAll.Inv :=
  { resetWith_inv inv.config with
    l_width := freeBits_length ..
    r_width := freeBits_length ..
    c_width := freeBits_length ..
    d_width := freeBits_length ..
    rc_bound := freeCounter_le ..
    bi_bound := freeCounter_le .. }

theorem discardInstance (inv : s.Inv) : s.discardInstance.Inv :=
  { inv with
    cipher := nofun
    no_cipher := fun _ => ⟨rfl, rfl⟩ }

theorem installInstance (inv : s.Inv) {key : Bits} {rk : List Bits} (hkey : key.length = s.cfg.keyBits)
    (hrk : deriveBits s.cfg key = .ok rk) : (s.installInstance key rk).Inv :=
  { inv with
    cipher := fun _ => ⟨hkey, hrk⟩
    no_cipher := nofun }

theorem unspecifySchedule (inv : s.Inv) : s.unspecifySchedule.Inv :=
  { inv with
    c_width := freeBits_length ..
    d_width := freeBits_length ..
    rc_bound := freeCounter_le .. }

theorem unspecifyBlock (inv : s.Inv) : s.unspecifyBlock.Inv :=
  { inv with
    l_width := freeBits_length ..
    r_width := freeBits_length ..
    rc_bound := freeCounter_le .. }

theorem unspecifyMessage (inv : s.Inv) : s.unspecifyMessage.Inv :=
  { inv.unspecifyBlock with
    bi_bound := freeCounter_le .. }

/-- An output that fits OUTMEM has a length that fits `OLEN` (W10). -/
theorem storeOutput (inv : s.Inv) {o : List Byte} (ho : o.length ≤ bufferSize s.cfg .outmem) : (s.storeOutput o).Inv := by
  have holen : (s.storeOutput o).olen.toNat = o.length :=
    BitVec.toNat_ofNat .. |>.trans (Nat.mod_eq_of_lt (Nat.lt_of_le_of_lt ho (outmem_size_lt inv.config)))
  exact { inv with
    outmem_wf := wf_keepBelow (wf_storeBytes o inv.outmem_wf 0) o.length
    output := fun a => by rw [storeOutput_written, holen]
    output_fits := holen ▸ ho }

theorem complete (inv : s.Inv) (hh : s.halt = false) : s.complete.Inv :=
  { inv with
    err_code := Nat.zero_le _
    err_sticky := fun h => absurd rfl h
    halted := by simp [hh] }

/-- The hypothesis leaves out the two panics that would halt with a code other than 4. -/
theorem raise (inv : s.Inv) (hh : s.halt = false) {f : FaultCode} (hf : f.isPanic = true ↔ f = .invalidAction) :
    (s.raise f).Inv :=
  { inv with
    err_code := errValue_le f
    err_sticky := fun _ => by simp [stickyBit_self]
    sticky_zero := by rw [State.raise_esticky, BitVec.getLsbD_or, inv.sticky_zero, stickyBit_zero, Bool.or_false]
    halted := by
      rw [State.raise_halt, hh, Bool.false_or, hf, State.raise_err]
      cases f <;> decide }

/-- With `KEY_VALID = 1` the round-key file has its shape, being derived from `KEY` (41_key_schedule.md R116 (b)). -/
theorem roundKeysShaped (inv : s.Inv) (hv : s.keyValid = true) : RoundKeysShaped s.cfg s.rk := by
  obtain ⟨hkey, hderive⟩ := inv.cipher hv
  obtain ⟨rk, hrk, hshape⟩ := deriveBits_ok inv.config hkey
  obtain rfl : s.rk = rk := Except.ok.inj (hderive.symm.trans hrk)
  exact hshape

end State.Inv

section Steps

variable {s : State}

/-! ### Commands -/

theorem faultBase_keeps_inv (inv : s.Inv) (i : Instr) : (faultBase i s).Inv := by
  unfold faultBase
  split
  · exact inv.discardInstance
  · exact inv

/-- The output of every command that succeeds fits OUTMEM, for `MLEN` is 8 or at most `MSG_CAP`. -/
theorem commandBody_keeps_inv (inv : s.Inv) {i : Instr} {u : State} (hn : i ≠ .nop) (hr : i ≠ .rst)
    (h : commandBody i s = .ok u) : u.Inv := by
  rcases commandBody_ok hn hr h with ⟨_, rk, _, _, hrk, rfl⟩ | ⟨_, rfl⟩ | ⟨tag, o, _, hv, _, ho, rfl⟩ |
    ⟨_, ct, hv, hcap, hct, rfl⟩ | ⟨_, pt, bad, hv, hcap, h8, hpt, rfl⟩
  · exact (inv.discardInstance.installInstance (by simp [Cfg.keyBits]) hrk).unspecifySchedule
  · exact inv.discardInstance
  · have hlen : o.length = 8 := cryptBlock_length inv.config (inv.roundKeysShaped hv) (memRead_length ..) ho
    have hfits : o.length ≤ s.cfg.msgCap + 8 := by omega
    exact (inv.storeOutput hfits).unspecifyBlock
  · have hlen := encMessage_length inv.config (inv.roundKeysShaped hv) hct
    have hfits : ct.length ≤ s.cfg.msgCap + 8 := by rw [memRead_length] at hlen; omega
    exact (inv.storeOutput hfits).unspecifyMessage
  · have hlen := decMessage_length_le inv.config (inv.roundKeysShaped hv) (by rwa [memRead_length]) hpt
    have hfits : pt.length ≤ s.cfg.msgCap + 8 := by rw [memRead_length] at hlen; omega
    exact (inv.storeOutput hfits).unspecifyMessage.of_unconstrained ..

/-- Over a buildable configuration a command's own faults are reported ones, so none of them halts. -/
theorem exec_keeps_inv (inv : s.Inv) {i : Instr} {t : State} (h : exec i s = .next t) : t.Inv := by
  rcases exec_cases h with ⟨_, _, rfl⟩ | ⟨_, rfl⟩ | ⟨_, _, hh, f, hf, rfl⟩ | ⟨hn, hr, hh, u, hu, rfl⟩
  · exact inv
  · exact inv.resetAll
  · obtain ⟨_, hbase, _⟩ := faultBase_frame i s
    refine (faultBase_keeps_inv inv i).raise (hbase.trans hh) ?_
    rcases commandBody_error inv.config inv.roundKeysShaped hf with rfl | rfl | rfl | rfl <;> decide
  · obtain ⟨_, hhalt, _⟩ := commandBody_frame hn hr hu
    exact (commandBody_keeps_inv inv hn hr hu).complete (hhalt.trans hh)

/-! ### Host actions -/

theorem writeCmd_keeps_inv (inv : s.Inv) {w : Word} {t : State} (h : writeCmd w s = .next t) : t.Inv := by
  rcases writeCmd_cases h with ⟨i, u, _, hu, rfl⟩ | ⟨_, _, rfl⟩
  · exact (exec_keeps_inv inv.beginCommand hu).endCommand
  · split
    case isTrue => exact inv.beginCommand.endCommand
    case isFalse hh =>
      exact (inv.beginCommand.raise (by simpa using hh) (f := .invalidAction) (by decide)).endCommand

/-- A byte the host writes lands below the size of its buffer, and OUTMEM is none of its buffers. -/
theorem hostWriteMem_keeps_inv (inv : s.Inv) (sp : Space) (a : Nat) (b : Byte) : (hostWriteMem sp a b s).Inv := by
  rcases hostWriteMem_cases sp a b s with ⟨hsp, ha, h⟩ | ⟨_, h⟩ <;> rw [h]
  · cases sp with
    | keymem => exact { inv with
        keymem_wf := wf_set inv.keymem_wf a b
        keymem_below := below_set inv.keymem_below ha b }
    | inmem => exact { inv with
        inmem_wf := wf_set inv.inmem_wf a b
        inmem_below := below_set inv.inmem_below ha b }
    | outmem => contradiction
  · exact inv

theorem actIdle_keeps_inv (inv : s.Inv) {a : HostAction} {t : State} (h : actIdle a s = .next t) : t.Inv := by
  rcases actIdle_cases h with ⟨w, _, hw⟩ | ⟨n, v, _, _, rfl | rfl | rfl⟩ | ⟨n, _, rfl⟩ | ⟨sp, o, b, _, rfl⟩ |
    ⟨sp, o, _, rfl⟩ | ⟨_, rfl⟩
  case inl => exact writeCmd_keeps_inv inv hw
  case inr.inr.inr.inl => exact hostWriteMem_keeps_inv inv sp o b
  case inr.inr.inr.inr.inr => exact inv.resetAll
  all_goals exact inv.of_unconstrained ..

theorem actBusy_keeps_inv (inv : s.Inv) {a : HostAction} {t : State} (h : actBusy a s = .next t) : t.Inv := by
  rcases actBusy_cases h with rfl | ⟨x, rfl⟩ | ⟨x, rfl⟩ | ⟨_, rfl⟩
  case inr.inr.inr => exact inv.resetAll
  all_goals exact inv.of_unconstrained ..

end Steps

/-- Settles O34: a step holds the state or performs one host action, and every host action keeps the invariant. -/
theorem stepKeepsInvariant : Obligations.StepKeepsInvariant := by
  intro s t inv h
  rcases step_cases h with ⟨_, rfl⟩ | ⟨a, rest, _, hact⟩
  · exact inv
  · have inv' : State.Inv { s with host := rest } := inv.of_unconstrained ..
    rcases hact with ⟨_, hbusy⟩ | ⟨_, hidle⟩
    · exact actBusy_keeps_inv inv' hbusy
    · exact actIdle_keeps_inv inv' hidle

end Sys2Proof.Machine
end

section
/-!
PROOFS. The key schedule (41_key_schedule.md R110, R112): the shape of the round keys and their closed form.
-/

namespace Sys2Proof.Machine

/-! ### derive -/

theorem derive_of_short {cfg : Cfg} {key : List Byte} (h : key.length < cfg.keyBytes) :
    derive cfg key = .error .invalidKey :=
  if_pos h

theorem derive_of_long {cfg : Cfg} {key : List Byte} (h : cfg.keyBytes ≤ key.length) :
    derive cfg key = deriveBits cfg (bytesToBits (key.take cfg.keyBytes)) :=
  if_neg (Nat.not_lt.2 h)

/-- Settles O42: `derive` is `derive_bits` of the first `KEY_BYTES` bytes, and another key with the same first bytes is
long enough too. -/
theorem deriveGivesRoundKeys : Obligations.DeriveGivesRoundKeys := by
  intro cfg key wf
  refine ⟨derive_of_short, fun hlong => ?_⟩
  have htake : (key.take cfg.keyBytes).length = cfg.keyBytes := List.length_take_of_le hlong
  obtain ⟨rk, hrk, hshape⟩ := deriveBits_ok wf (key := bytesToBits (key.take cfg.keyBytes)) (by simp [htake, Cfg.keyBits])
  refine ⟨rk, by rw [derive_of_long hlong, hrk], hshape, fun other hother => ?_⟩
  have hlong' : cfg.keyBytes ≤ other.length := by
    have hle := List.length_take_le' cfg.keyBytes other
    rwa [hother, htake] at hle
  rw [derive_of_long hlong', hother, hrk]

/-! ### The closed form -/

theorem cyclicShiftLeft_add (v : Bits) (m n : Nat) : cyclicShiftLeft (cyclicShiftLeft v m) n = cyclicShiftLeft v (m + n) := by
  obtain ⟨_, _, hadd⟩ := cyclicShiftRotates v m n
  exact hadd

theorem cyclicShiftLeft_of_mod_eq_zero {v : Bits} {n : Nat} (h : n % v.length = 0) : cyclicShiftLeft v n = v := by
  simp [cyclicShiftLeft, h]

/-- Amounts that differ by a multiple of the width rotate alike. -/
theorem cyclicShiftLeft_congr {v : Bits} {m n : Nat} (hle : m ≤ n) (h : (n - m) % v.length = 0) :
    cyclicShiftLeft v n = cyclicShiftLeft v m := by
  rw [← Nat.add_sub_cancel' hle, ← cyclicShiftLeft_add, cyclicShiftLeft_of_mod_eq_zero (by simpa using h)]

/-- What one round of the key schedule takes and gives (41_key_schedule.md R111). -/
theorem scheduleRounds_succ_ok {cfg : Cfg} {r n : Nat} {c d : Bits} {rk : List Bits}
    (h : scheduleRounds cfg r (n + 1) c d = .ok rk) : ∃ amount k rest, cfg.shift[r]? = some amount ∧
      permute (cyclicShiftLeft c amount ++ cyclicShiftLeft d amount) cfg.pc2 = .ok k ∧
      scheduleRounds cfg (r + 1) n (cyclicShiftLeft c amount) (cyclicShiftLeft d amount) = .ok rest ∧
      rk = k :: rest := by
  obtain ⟨amount, hamount, h⟩ := except_bind_eq_ok.1 h
  obtain ⟨k, hk, h⟩ := except_bind_eq_ok.1 h
  obtain ⟨rest, hrest, h⟩ := except_bind_eq_ok.1 h
  have hmerge : ∀ x y : Bits, merge [x, y] = x ++ y := fun x y => by simp [merge]
  rw [hmerge] at hk
  exact ⟨amount, k, rest, element_eq_ok.1 hamount, hk, hrest, (Except.ok.inj h).symm⟩

/-- The round keys from round `r` on, when the halves before that round are the initial ones rotated by the sum of the
first `r` amounts: the sum grows by the round's amount, and so does the rotation. -/
theorem scheduleRounds_closedForm {cfg : Cfg} {c₀ d₀ : Bits} : ∀ {n r : Nat} {rk : List Bits},
    scheduleRounds cfg r n (cyclicShiftLeft c₀ (cfg.shift.take r).sum) (cyclicShiftLeft d₀ (cfg.shift.take r).sum) =
      .ok rk → ∀ j < n, ∃ k, rk[j]? = some k ∧
        permute (cyclicShiftLeft c₀ (cfg.shift.take (r + j + 1)).sum ++ cyclicShiftLeft d₀ (cfg.shift.take (r + j + 1)).sum)
          cfg.pc2 = .ok k
  | 0, _, _, _, _, hj => absurd hj (Nat.not_lt_zero _)
  | n + 1, r, _, h, j, hj => by
    obtain ⟨amount, k, rest, hamount, hk, hrest, rfl⟩ := scheduleRounds_succ_ok h
    have hsum : (cfg.shift.take r).sum + amount = (cfg.shift.take (r + 1)).sum := by
      rw [List.take_add_one, hamount, List.sum_append]; rfl
    rw [cyclicShiftLeft_add, cyclicShiftLeft_add, hsum] at hk hrest
    cases j with
    | zero => exact ⟨k, rfl, hk⟩
    | succ j =>
      have hr : r + (j + 1) + 1 = (r + 1) + j + 1 := by omega
      rw [hr, List.getElem?_cons_succ]
      exact scheduleRounds_closedForm hrest j (by omega)

theorem deriveBits_eq_scheduleRounds {cfg : Cfg} {key cd c₀ d₀ : Bits} (hcd : permute key cfg.pc1 = .ok cd)
    (hsplit : split cd 2 = .ok [c₀, d₀]) : deriveBits cfg key = scheduleRounds cfg 0 cfg.rounds c₀ d₀ := by
  simp [deriveBits, halves, hcd, hsplit]

/-- The first compression and its two halves (41_key_schedule.md R111, W6). -/
theorem initialHalves_ok {cfg : Cfg} (wf : cfg.WF) {key : Bits} (hkey : key.length = cfg.keyBits) :
    ∃ cd c₀ d₀, permute key cfg.pc1 = .ok cd ∧ split cd 2 = .ok [c₀, d₀] ∧
      c₀.length = cfg.halfCd ∧ d₀.length = cfg.halfCd := by
  obtain ⟨_, _, _, _, _, ⟨_, _, heven, hlen, hbound⟩, _⟩ := wf
  obtain ⟨cd, hcd⟩ : ∃ cd, permute key cfg.pc1 = .ok cd := ⟨_, permute_ok (by rwa [hkey])⟩
  have hwidth : cd.length = 2 * cfg.halfCd := by
    rw [permute_length hcd, hlen, Cfg.halfCd]
    omega
  exact ⟨cd, _, _, hcd, split_ok (by decide) hwidth, slices_width _ 2 _ hwidth _ (by simp [slices]),
    slices_width _ 2 _ hwidth _ (by simp [slices])⟩

/-- Settles O43: the rounds start from the initial halves rotated by nothing; rotations by sums that differ by a multiple
of the width are the same, and so are the subkeys taken from them. -/
theorem keyScheduleClosedForm : Obligations.KeyScheduleClosedForm := by
  intro cfg key wf hkey
  obtain ⟨cd, c₀, d₀, hcd, hsplit, hc, hd⟩ := initialHalves_ok wf hkey
  obtain ⟨rk, hrk, -⟩ := deriveBits_ok wf hkey
  have hrounds : scheduleRounds cfg 0 cfg.rounds (cyclicShiftLeft c₀ (cfg.shift.take 0).sum)
      (cyclicShiftLeft d₀ (cfg.shift.take 0).sum) = .ok rk := by
    rw [List.take_zero, List.sum_nil, cyclicShiftLeft_of_mod_eq_zero (Nat.zero_mod _),
      cyclicShiftLeft_of_mod_eq_zero (Nat.zero_mod _), ← deriveBits_eq_scheduleRounds hcd hsplit, hrk]
  have hclosed : ∀ r < cfg.rounds, ∃ k, rk[r]? = some k ∧
      permute (cyclicShiftLeft c₀ (cfg.shift.take (r + 1)).sum ++ cyclicShiftLeft d₀ (cfg.shift.take (r + 1)).sum)
        cfg.pc2 = .ok k := by
    simpa using scheduleRounds_closedForm hrounds
  refine ⟨cd, c₀, d₀, rk, hcd, hsplit, hrk, hclosed, fun r₁ r₂ hle hlt hmod => ?_⟩
  obtain ⟨k₁, hk₁, hperm₁⟩ := hclosed r₁ (by omega)
  obtain ⟨k₂, hk₂, hperm₂⟩ := hclosed r₂ hlt
  have hsum : (cfg.shift.take (r₁ + 1)).sum ≤ (cfg.shift.take (r₂ + 1)).sum :=
    (List.take_sublist_take_left (Nat.succ_le_succ hle)).sum_le_sum fun _ _ => Nat.zero_le _
  rw [cyclicShiftLeft_congr hsum (hc ▸ hmod), cyclicShiftLeft_congr hsum (hd ▸ hmod), hperm₁] at hperm₂
  rw [hk₁, hk₂, Except.ok.inj hperm₂]

end Sys2Proof.Machine
end

section
/-!
PROOFS. The cipher instance (41_key_schedule.md R113, R114, R116): what KLOAD and KCLR make of it, and that no data command
and no host action but a command or a reset touches it.
-/

namespace Sys2Proof.Machine

/-! ### What stays the same -/

theorem sameBuffer_of_mem_eq {s t : State} {sp : Space} (hmem : t.mem sp = s.mem sp) (hepoch : t.epoch sp = s.epoch sp) :
    SameBuffer s t sp := fun a => by
  simp only [State.byteAt, State.written, hmem, hepoch, and_self]

/-- A reported fault leaves `HALT` as it was (60_exceptions.md R193, R194). -/
theorem raise_of_reported {f : FaultCode} (hf : f.isPanic = false) (s : State) :
    s.raise f = { s with err := f.errValue, esticky := s.esticky ||| f.stickyBit, busy := false } := by
  simp [State.raise, hf]

/-! ### KCLR -/

/-- Settles O21: the discard of the instance, and the end of a command that succeeds. -/
theorem kclrEffect : Obligations.KclrEffect :=
  ⟨rfl, fun _ hh => unlessHalted_of_running hh _⟩

/-! ### KLOAD -/

/-- A KLOAD whose operand fails has discarded the instance before it reports the fault. -/
theorem exec_kload_of_error {s : State} {f : FaultCode} (hh : s.halt = false) (h : keyOperand s = .error f) :
    exec .kload s = .next (s.discardInstance.raise f) := by
  have hload : loadKey s.discardInstance = .error f := by
    rw [loadKey, show keyOperand s.discardInstance = .error f from h, except_error_bind]
  exact (unlessHalted_of_running hh _).trans (by rw [hload, finish_error])

/-- A KLOAD with a good operand installs the key and the round keys derived from it. -/
theorem exec_kload_of_ok {s : State} {bytes : List Byte} {rk : List Bits} (hh : s.halt = false)
    (h : keyOperand s = .ok bytes) (hrk : deriveBits s.cfg (bytesToBits bytes) = .ok rk) :
    exec .kload s =
      .next (s.discardInstance.installInstance (bytesToBits bytes) rk).unspecifySchedule.complete := by
  have hload : loadKey s.discardInstance =
      .ok (s.discardInstance.installInstance (bytesToBits bytes) rk).unspecifySchedule := by
    rw [loadKey, show keyOperand s.discardInstance = .ok bytes from h, except_ok_bind, State.discardInstance_cfg, hrk,
      except_ok_bind]
  exact (unlessHalted_of_running hh _).trans (by rw [hload, finish_ok])

/-- What a KLOAD that succeeds writes beside the instance is `ERR`, `C`, `D` and `RC`. -/
theorem loadFrame_install (s : State) (key : Bits) (rk : List Bits) :
    LoadFrame s (s.discardInstance.installInstance key rk).unspecifySchedule.complete where
  surroundings := ⟨rfl, rfl, rfl⟩
  buffers := fun sp => sameBuffer_of_mem_eq (by cases sp <;> rfl) (by cases sp <;> rfl)
  halt := rfl
  badpad := rfl
  busy := rfl
  esticky := rfl
  klen := rfl
  mlen := rfl
  olen := rfl
  l := rfl
  r := rfl
  bi := rfl

/-- Settles O22: the operand's two checks in their order, then a derivation that cannot fail. With a capacity of at least
`KEY_BYTES` (W10) the two faults exclude each other. -/
theorem kloadEffect : Obligations.KloadEffect := by
  refine ⟨rfl, fun s wf hh => ?_⟩
  have hcap := keyBytes_le_keyCap wf
  rcases keyOperand_cases s with ⟨hbig, hop⟩ | ⟨hle, hshort, hop⟩ | ⟨hle, hge, hop⟩
  · refine ⟨fun _ => ?_, by omega, by omega⟩
    rw [exec_kload_of_error hh hop, raise_of_reported rfl]
    rfl
  · refine ⟨by omega, fun _ => ?_, by omega⟩
    rw [exec_kload_of_error hh hop, raise_of_reported rfl]
    rfl
  · refine ⟨by omega, by omega, fun _ => ?_⟩
    obtain ⟨rk, hrk, -⟩ := deriveBits_ok wf (key := bytesToBits (s.memRead .keymem 0 s.cfg.keyBytes))
      (by simp [Cfg.keyBits])
    exact ⟨_, exec_kload_of_ok hh hop hrk, rfl, rfl, hrk, rfl, loadFrame_install s _ rk⟩

/-! ### The data commands -/

/-- Settles O29: these commands' faults are raised from the state before the command, and what they write when they succeed
is no part of the instance. -/
theorem dataCommandsKeepInstance : Obligations.DataCommandsKeepInstance := by
  intro i s t hi h
  have hload : i ≠ .kload := by rintro rfl; simp at hi
  rcases exec_cases h with ⟨_, _, rfl⟩ | ⟨rfl, _⟩ | ⟨_, _, _, f, _, rfl⟩ | ⟨hn, hr, _, u, hu, rfl⟩
  · exact ⟨rfl, rfl, rfl⟩
  · simp at hi
  · rw [faultBase, if_neg hload]
    exact ⟨rfl, rfl, rfl⟩
  · rcases commandBody_ok hn hr hu with ⟨hi', _⟩ | ⟨rfl, _⟩ | ⟨_, o, _, _, _, _, rfl⟩ | ⟨_, ct, _, _, _, rfl⟩ |
      ⟨_, pt, bad, _, _, _, _, rfl⟩
    · exact absurd hi' hload
    · simp at hi
    all_goals exact ⟨rfl, rfl, rfl⟩

/-! ### The host actions -/

theorem hostWriteMem_sameInstance (sp : Space) (a : Nat) (b : Byte) (s : State) :
    SameInstance s (hostWriteMem sp a b s) := by
  rcases hostWriteMem_cases sp a b s with ⟨_, _, h⟩ | ⟨_, h⟩ <;> rw [h]
  · exact ⟨State.setByte_key .., State.setByte_rk .., State.setByte_keyValid ..⟩
  · exact ⟨rfl, rfl, rfl⟩

theorem actIdle_sameInstance {a : HostAction} {s t : State} (hreset : a ≠ .reset) (hcmd : ∀ w, a ≠ .writeReg 0 w)
    (h : actIdle a s = .next t) : SameInstance s t := by
  rcases actIdle_cases h with ⟨w, ha, _⟩ | ⟨n, v, _, _, rfl | rfl | rfl⟩ | ⟨n, _, rfl⟩ | ⟨sp, o, b, _, rfl⟩ |
    ⟨sp, o, _, rfl⟩ | ⟨ha, _⟩
  case inl => exact absurd ha (hcmd w)
  case inr.inr.inr.inl => exact hostWriteMem_sameInstance sp o b s
  case inr.inr.inr.inr.inr => exact absurd ha hreset
  all_goals exact ⟨rfl, rfl, rfl⟩

theorem actBusy_sameInstance {a : HostAction} {s t : State} (hreset : a ≠ .reset) (h : actBusy a s = .next t) :
    SameInstance s t := by
  rcases actBusy_cases h with rfl | ⟨_, rfl⟩ | ⟨_, rfl⟩ | ⟨ha, _⟩
  case inr.inr.inr => exact absurd ha hreset
  all_goals exact ⟨rfl, rfl, rfl⟩

/-- Settles O30: the step performs the action, and no action but a write of CMD or a reset touches the instance. -/
theorem hostWritesKeepInstance : Obligations.HostWritesKeepInstance := by
  intro s t a rest ha hreset hcmd h
  rw [step_cons ha, act] at h
  split at h
  · exact (actBusy_sameInstance hreset h :)
  · exact (actIdle_sameInstance hreset hcmd h :)

end Sys2Proof.Machine
end

section
/-!
PROOFS. The round function (42_round_function.md R126 to R129): `SUB` as a flat lookup over the group's value, `F` group by
group, and the round that the same round undoes between two exchanges of the halves.
-/

namespace Sys2Proof.Machine

/-! ### SUB -/

/-- A group of at least two bits as its first bit, its middle bits and its last bit. -/
theorem exists_first_middle_last {x : Bits} {n : Nat} (h : x.length = n + 2) :
    ∃ (first : Bool) (middle : Bits) (last : Bool), x = first :: (middle ++ [last]) ∧ middle.length = n := by
  obtain ⟨first, tail, rfl⟩ := List.exists_cons_of_length_eq_add_one h
  obtain ⟨middle, last, rfl⟩ := (List.eq_nil_or_concat' tail).resolve_left (by rintro rfl; simp at h)
  exact ⟨first, middle, last, rfl, by simpa using h⟩

/-- Halving the value of a group drops its last bit. -/
theorem valOf_first_middle_last_div_two (first : Bool) (middle : Bits) (last : Bool) :
    valOf (first :: (middle ++ [last])) / 2 = first.toNat * 2 ^ middle.length + valOf middle := by
  have := Bool.toNat_lt last
  rw [← List.cons_append, valOf_append, valOf_cons]
  simp [valOf_cons]
  omega

theorem valOf_first_middle_last_mod_two (first : Bool) (middle : Bits) (last : Bool) :
    valOf (first :: (middle ++ [last])) % 2 = last.toNat := by
  have := Bool.toNat_lt last
  rw [← List.cons_append, valOf_append]
  simp [valOf_cons]
  omega

/-- The row of a lookup is the leading bit of the group's value, then its parity (42_round_function.md R126). -/
theorem subRow_eq {cfg : Cfg} {x : Bits} (hg : 2 ≤ cfg.g) (hx : x.length = cfg.g) :
    subRow cfg x = 2 * (valOf x / 2 ^ (cfg.g - 1)) + valOf x % 2 := by
  obtain ⟨first, middle, last, rfl, hm⟩ := exists_first_middle_last (x := x) (n := cfg.g - 2) (by omega)
  have hwidth : cfg.g - 1 = middle.length + 1 := by omega
  have hleading : valOf (first :: (middle ++ [last])) / 2 ^ (middle.length + 1) = first.toNat := by
    rw [Nat.pow_succ', ← Nat.div_div_eq_div_mul, valOf_first_middle_last_div_two, Nat.mul_comm,
      Nat.mul_add_div (Nat.two_pow_pos _), Nat.div_eq_of_lt (valOf_lt middle), Nat.add_zero]
  rw [hwidth, hleading, valOf_first_middle_last_mod_two]
  simp [subRow, hwidth]

/-- The column of a lookup is the group's value without its first and its last bit (42_round_function.md R126). -/
theorem subColumn_eq {cfg : Cfg} {x : Bits} (hg : 2 ≤ cfg.g) (hx : x.length = cfg.g) :
    subColumn cfg x = valOf x / 2 % 2 ^ (cfg.g - 2) := by
  obtain ⟨first, middle, last, rfl, hm⟩ := exists_first_middle_last (x := x) (n := cfg.g - 2) (by omega)
  rw [valOf_first_middle_last_div_two, ← hm, Nat.mul_add_mod_self_right, Nat.mod_eq_of_lt (valOf_lt middle)]
  simp [subColumn, ← hm]

/-- Settles O44: the row and the column are read off the group's value, and `SUB` finds an entry of 4 bits there. -/
theorem subIsFlatLookup : Obligations.SubIsFlatLookup := by
  intro cfg g x wf hg hx
  obtain ⟨table, row, entry, htable, hrow, hentry, hlt, hsub⟩ := sub_ok wf hg hx
  obtain ⟨_, h2, _⟩ := wf
  rw [subRow_eq h2 hx] at hrow
  rw [subColumn_eq h2 hx] at hentry
  exact ⟨table, row, entry, htable, hrow, hentry, hlt, hsub, (valOf_bitsOf entry 4).trans (Nat.mod_eq_of_lt hlt)⟩

/-! ### F -/

/-- Output `j` of the eight substitutions is `SUB(j)` of group `j`. -/
theorem subGroups_getElem? {cfg : Cfg} (wf : cfg.WF) {x : Bits} {ys : List Bits} (hx : x.length = 8 * cfg.g)
    (h : subGroups cfg 0 (slices cfg.g 8 x) = .ok ys) {j : Nat} (hj : j < 8) :
    ∃ y, ys[j]? = some y ∧ sub cfg j ((x.drop (j * cfg.g)).take cfg.g) = .ok y := by
  obtain ⟨ys', hys', _, _, hall⟩ := subGroups_ok wf (slices cfg.g 8 x) 0 (by simp) (slices_width _ _ _ hx)
  obtain rfl : ys' = ys := Except.ok.inj (hys'.symm.trans h)
  simpa using hall j _ (slices_getElem? cfg.g 8 x j hj)

/-- Part `j` of a merge of parts of one width stands from bit `j` times the width on. -/
theorem merge_slice {parts : List Bits} {w j : Nat} {y : Bits} (hw : ∀ p ∈ parts, p.length = w)
    (hy : parts[j]? = some y) : ((merge parts).drop (j * w)).take w = y := by
  obtain ⟨hj, -⟩ := List.getElem?_eq_some_iff.1 hy
  have hslice := slices_getElem? w parts.length (merge parts) j hj
  rw [merge, slices_of_flatten w parts hw, hy] at hslice
  exact (Option.some.inj hslice).symm

/-- Settles O45: `Y` is the merge of the eight outputs, of which each is `SUB` of its group. -/
theorem fSubstitutesGroupwise : Obligations.FSubstitutesGroupwise := by
  intro cfg rh k wf hrh hk
  obtain ⟨e, x, ys, o, he, hx, hxlen, hys, hyslen, hwidth, ho, holen, hF⟩ := feistelF_steps wf hrh hk
  have hlen : (merge ys).length = 32 := by rw [merge, flatten_length_of_width 4 ys hwidth, hyslen]
  refine ⟨e, x, merge ys, o, he, hx, hlen, fun j hj => ?_, ho, holen, hF⟩
  obtain ⟨y, hy, hsub⟩ := subGroups_getElem? wf hxlen hys hj
  rw [Nat.mul_comm 4 j, merge_slice hwidth hy, hsub]

/-! ### ROUND -/

theorem round_of_feistelF {cfg : Cfg} {lh rh k f b : Bits} (hf : feistelF cfg rh k = .ok f)
    (hb : xorBits lh f = .ok b) : round cfg lh rh k = .ok (rh, b) := by
  rw [round, hf, except_ok_bind, hb, except_ok_bind]

theorem xorBits_cancel {a b c : Bits} (h : xorBits a b = .ok c) : xorBits c b = .ok a := by
  obtain ⟨_, hlen⟩ := xorBits_length h
  obtain ⟨c', hc', _, _, _, hcancel, _⟩ := (xorCombines a b).2 hlen
  rwa [Except.ok.inj (h.symm.trans hc')]

/-- Settles O46: the second round has the same right half and key, so the same `F`, and its `xor` cancels the first. -/
theorem roundUndoesItself : Obligations.RoundUndoesItself := by
  intro cfg lh rh k wf hlh hrh hk
  obtain ⟨f, b, hf, _, hb, _, hround⟩ := round_ok wf hlh hrh hk
  exact ⟨f, b, hf, hb, hround, round_of_feistelF hf (xorBits_cancel hb)⟩

end Sys2Proof.Machine
end

section
/-!
PROOFS. The block iterator (43_block_iterator.md R141 to R146): the rounds of `crypt_block` as a sequence of halves, the
round trip by that sequence read backwards, and the commands ENCB and DECB.
-/

namespace Sys2Proof.Machine

/-! ### The rounds as a sequence of halves -/

theorem runRounds_succ_eq_ok {cfg : Cfg} {rk : List Bits} {act : Action} {rc n : Nat} {lr lr' : Bits × Bits} :
    runRounds cfg rk act rc (n + 1) lr = .ok lr' ↔
      ∃ k mid, rk[kidx cfg act rc]? = some k ∧ round cfg lr.1 lr.2 k = .ok mid ∧
        runRounds cfg rk act (rc + 1) n mid = .ok lr' := by
  simp [runRounds, except_bind_eq_ok, element_eq_ok]

/-- Each of the `n` rounds from count `rc` on leads from one pair of halves of the sequence to the next
(43_block_iterator.md R141). -/
def RoundsThrough (cfg : Cfg) (rk : List Bits) (act : Action) (rc n : Nat) (states : Nat → Bits × Bits) : Prop :=
  ∀ i < n, ∃ k, rk[kidx cfg act (rc + i)]? = some k ∧ round cfg (states i).1 (states i).2 k = .ok (states (i + 1))

theorem roundsThrough_succ {cfg : Cfg} {rk : List Bits} {act : Action} {rc n : Nat} {states : Nat → Bits × Bits} :
    RoundsThrough cfg rk act rc (n + 1) states ↔
      (∃ k, rk[kidx cfg act rc]? = some k ∧ round cfg (states 0).1 (states 0).2 k = .ok (states 1)) ∧
        RoundsThrough cfg rk act (rc + 1) n fun i => states (i + 1) := by
  simp only [RoundsThrough, Nat.forall_lt_succ_left, Nat.add_zero, Nat.zero_add, Nat.add_assoc, Nat.add_comm 1]

theorem runRounds_of_roundsThrough {cfg : Cfg} {rk : List Bits} {act : Action} :
    ∀ {n rc : Nat} {states : Nat → Bits × Bits}, RoundsThrough cfg rk act rc n states →
      runRounds cfg rk act rc n (states 0) = .ok (states n)
  | 0, _, _, _ => rfl
  | _ + 1, _, _, h => by
    obtain ⟨⟨k, hk, hround⟩, hrest⟩ := roundsThrough_succ.1 h
    exact runRounds_succ_eq_ok.2 ⟨k, _, hk, hround, runRounds_of_roundsThrough hrest⟩

theorem exists_roundsThrough {cfg : Cfg} {rk : List Bits} {act : Action} :
    ∀ {n rc : Nat} {lr lr' : Bits × Bits}, runRounds cfg rk act rc n lr = .ok lr' →
      ∃ states, states 0 = lr ∧ states n = lr' ∧ RoundsThrough cfg rk act rc n states
  | 0, _, lr, _, h => ⟨fun _ => lr, rfl, Except.ok.inj h, fun _ hi => absurd hi (Nat.not_lt_zero _)⟩
  | _ + 1, _, lr, _, h => by
    obtain ⟨k, _, hk, hround, hrest⟩ := runRounds_succ_eq_ok.1 h
    obtain ⟨rest, rfl, hlast, hthrough⟩ := exists_roundsThrough hrest
    exact ⟨fun | 0 => lr | i + 1 => rest i, rfl, hlast, roundsThrough_succ.2 ⟨⟨k, hk, hround⟩, hthrough⟩⟩

/-! ### The permutations around the rounds -/

section Permutations

variable {cfg : Cfg}

theorem initialPermutation_of_none (h : cfg.ipfp = none) (v : Bits) : initialPermutation cfg v = .ok v := by
  simp [initialPermutation, h]

theorem initialPermutation_of_some {ip fp : List Nat} (h : cfg.ipfp = some (ip, fp)) (v : Bits) :
    initialPermutation cfg v = permute v ip := by
  simp [initialPermutation, h]

theorem finalPermutation_of_none (h : cfg.ipfp = none) (v : Bits) : finalPermutation cfg v = .ok v := by
  simp [finalPermutation, h]

theorem finalPermutation_of_some {ip fp : List Nat} (h : cfg.ipfp = some (ip, fp)) (v : Bits) :
    finalPermutation cfg v = permute v fp := by
  simp [finalPermutation, h]

/-- The inverse tables of W9 cancel on a Block: an entry within the table is the same under either default. -/
theorem permute_cancel {v w : Bits} {first second : List Nat} (hv : v.length = 64) (hfirst : first.length = 64)
    (hsecond : second.length = 64) (hfirst' : ∀ x ∈ first, x < 64) (hsecond' : ∀ x ∈ second, x < 64)
    (hinverse : ∀ i < 64, first[second.getD i 64]? = some i) (h : permute v first = .ok w) :
    permute w second = .ok v := by
  have hdefault : ∀ i < 64, second.getD i 0 = second.getD i 64 := fun i hi => by simp [hsecond, hi]
  obtain ⟨w', hw', hcancel⟩ := inverseTablesCancel v first second (by omega) (by omega) (by rwa [hv]) (by rwa [hv])
    fun i hi => by rw [hdefault i (by omega), hinverse i (by omega)]
  rwa [Except.ok.inj (h.symm.trans hw')]

/-- The two permutations of a Block undo each other, whether the configuration has them or not (W9). -/
theorem initialPermutation_eq_ok_iff (wf : cfg.WF) {v w : Bits} (hv : v.length = 64) (hw : w.length = 64) :
    initialPermutation cfg v = .ok w ↔ finalPermutation cfg w = .ok v := by
  obtain ⟨_, _, _, _, _, _, _, _, h9, _⟩ := wf
  cases hp : cfg.ipfp with
  | none => simp [initialPermutation_of_none hp, finalPermutation_of_none hp, eq_comm]
  | some tables =>
    obtain ⟨hip, hfp, hip', hfp', _, hinverse⟩ := h9 tables hp
    rw [initialPermutation_of_some hp, finalPermutation_of_some hp]
    exact ⟨permute_cancel hv hip hfp hip' hfp' fun i hi => (hinverse i hi).1,
      permute_cancel hw hfp hip hfp' hip' fun i hi => (hinverse i hi).2⟩

end Permutations

/-! ### crypt_block -/

theorem cryptBlock_of_length_ne {cfg : Cfg} {block : List Byte} (h : block.length ≠ 8) (rk : List Bits) (act : Action) :
    cryptBlock cfg block rk act = .error .invalidBlockLength :=
  if_pos h

/-- The steps of `crypt_block`, if each succeeds, make its result; the converse of `cryptBlock_steps`, whatever the
configuration (43_block_iterator.md R141). -/
theorem cryptBlock_of_steps {cfg : Cfg} {rk : List Bits} {act : Action} {block out : List Byte} {v w : Bits}
    {lr : Bits × Bits} (hb : block.length = 8) (hv : initialPermutation cfg (bytesToBits block) = .ok v)
    (hvl : v.length = 64) (hlr : runRounds cfg rk act 0 cfg.rounds (v.take 32, v.drop 32) = .ok lr)
    (hw : finalPermutation cfg (lr.2 ++ lr.1) = .ok w) (ho : bitsToBytes w = .ok out) :
    cryptBlock cfg block rk act = .ok out := by
  simp [cryptBlock, hb, hv, halves_ok (w := 32) hvl, hlr, merge, hw, ho]

theorem kidx_eq_ite (cfg : Cfg) (tag : Action) (i : Nat) :
    kidx cfg tag i = if tag = .encrypt then i else cfg.rounds - 1 - i := by
  cases tag <;> rfl

theorem split_block {v : Bits} (h : v.length = 64) : split v 2 = .ok [v.take 32, v.drop 32] := by
  rw [split_ok (w := 32) (by decide) h]
  simp [slices, h]

/-- Settles O47: the sequence of halves that the rounds of `crypt_block` pass through. -/
theorem cryptBlockRunsRounds : Obligations.CryptBlockRunsRounds := by
  intro cfg block rk tag wf hrk
  refine ⟨fun h => cryptBlock_of_length_ne h rk tag, fun hb => ?_⟩
  obtain ⟨v, lr, w, out, hv, hvl, hlr, _, _, hw, _, ho, _, _, hcrypt⟩ := cryptBlock_steps wf hrk tag hb
  obtain ⟨states, hfirst, rfl, hthrough⟩ := exists_roundsThrough hlr
  refine ⟨v, w, states, out, fun hp => ?_, fun ip fp hp => ?_, ?_, fun i hi => ?_, fun hp => ?_, fun ip fp hp => ?_, ho,
    hcrypt⟩
  · exact Except.ok.inj (hv.symm.trans (initialPermutation_of_none hp _))
  · rw [← initialPermutation_of_some hp, hv]
  · rw [hfirst, split_block hvl]
  · obtain ⟨k, hk, hround⟩ := hthrough i hi
    rw [Nat.zero_add, kidx_eq_ite] at hk
    exact ⟨k, hk, hround⟩
  · exact Except.ok.inj (hw.symm.trans (finalPermutation_of_none hp _))
  · rw [← finalPermutation_of_some hp, hw]

/-! ### The reversed key list -/

theorem element_reverse {α : Type} {xs : List α} {i : Nat} (h : i < xs.length) :
    element xs.reverse i = element xs (xs.length - 1 - i) := by
  unfold element
  rw [List.getElem?_reverse h]

theorem runRounds_decrypt_eq_reverse {cfg : Cfg} {rk : List Bits} (hrk : rk.length = cfg.rounds) :
    ∀ (n rc : Nat) (lr : Bits × Bits), rc + n ≤ cfg.rounds →
      runRounds cfg rk .decrypt rc n lr = runRounds cfg rk.reverse .encrypt rc n lr
  | 0, _, _, _ => rfl
  | n + 1, rc, lr, h => by
    have hkey : element rk.reverse (kidx cfg .encrypt rc) = element rk (kidx cfg .decrypt rc) := by
      rw [kidx, element_reverse (by omega), hrk, kidx]
    simp only [runRounds, hkey, fun lr => runRounds_decrypt_eq_reverse hrk n (rc + 1) lr (by omega)]

/-- Settles O48: the action tag has its only effect in the rounds' choice of keys. -/
theorem decryptReversesKeyOrder : Obligations.DecryptReversesKeyOrder := by
  intro cfg block rk hrk
  simp only [cryptBlock, fun lr => runRounds_decrypt_eq_reverse hrk cfg.rounds 0 lr (by omega)]

/-! ### The round trip -/

/-- A round with its halves exchanged before and after undoes itself, on any widths (42_round_function.md R129). -/
theorem round_swap {cfg : Cfg} {k : Bits} {lr lr' : Bits × Bits} (h : round cfg lr.1 lr.2 k = .ok lr') :
    round cfg lr'.swap.1 lr'.swap.2 k = .ok lr.swap := by
  obtain ⟨f, hf, h⟩ := except_bind_eq_ok.1 h
  obtain ⟨b, hb, h⟩ := except_bind_eq_ok.1 h
  obtain rfl : (lr.2, b) = lr' := Except.ok.inj h
  exact round_of_feistelF hf (xorBits_cancel hb)

/-- Decryption passes through the halves of encryption, exchanged, from the last to the first: its round `i` has the key of
encryption's round `ROUNDS - 1 - i`. -/
theorem roundsThrough_decrypt {cfg : Cfg} {rk : List Bits} {states : Nat → Bits × Bits}
    (h : RoundsThrough cfg rk .encrypt 0 cfg.rounds states) :
    RoundsThrough cfg rk .decrypt 0 cfg.rounds fun i => (states (cfg.rounds - i)).swap := by
  intro i hi
  obtain ⟨k, hk, hround⟩ := h (cfg.rounds - (i + 1)) (by omega)
  have hkey : kidx cfg .encrypt (0 + (cfg.rounds - (i + 1))) = kidx cfg .decrypt (0 + i) := by simp only [kidx]; omega
  have hnext : cfg.rounds - (i + 1) + 1 = cfg.rounds - i := by omega
  rw [hkey] at hk
  rw [hnext] at hround
  exact ⟨k, hk, round_swap hround⟩

theorem runRounds_decrypt_encrypt {cfg : Cfg} {rk : List Bits} {lr lr' : Bits × Bits}
    (h : runRounds cfg rk .encrypt 0 cfg.rounds lr = .ok lr') :
    runRounds cfg rk .decrypt 0 cfg.rounds lr'.swap = .ok lr.swap := by
  obtain ⟨states, rfl, rfl, hthrough⟩ := exists_roundsThrough h
  simpa using runRounds_of_roundsThrough (roundsThrough_decrypt hthrough)

/-- Decryption undoes encryption from the outside in: the permutations cancel, and the swapped merge of the one is the
exchange of halves that the rounds of the other begin with (43_block_iterator.md R146). -/
theorem cryptBlock_decrypt_encrypt {cfg : Cfg} (wf : cfg.WF) {rk : List Bits} (hrk : RoundKeysShaped cfg rk)
    {block : List Byte} (hb : block.length = 8) :
    ∃ enc, cryptBlock cfg block rk .encrypt = .ok enc ∧ enc.length = 8 ∧
      cryptBlock cfg enc rk .decrypt = .ok block := by
  obtain ⟨v, lr, w, enc, hv, hvl, hlr, hl, hr, hw, _, _, hel, rfl, henc⟩ := cryptBlock_steps wf hrk .encrypt hb
  refine ⟨enc, henc, hel, ?_⟩
  have hmerged : (lr.2 ++ lr.1).length = 64 := by rw [List.length_append, hl, hr]
  have hinitial : initialPermutation cfg (bytesToBits enc) = .ok (lr.2 ++ lr.1) :=
    (initialPermutation_eq_ok_iff wf (by rw [bytesToBits_length, hel]) hmerged).2 hw
  have hrounds : runRounds cfg rk .decrypt 0 cfg.rounds ((lr.2 ++ lr.1).take 32, (lr.2 ++ lr.1).drop 32) =
      .ok (v.drop 32, v.take 32) := by
    rw [List.take_left' hr, List.drop_left' hr]
    exact runRounds_decrypt_encrypt hlr
  have hfinal : finalPermutation cfg (v.take 32 ++ v.drop 32) = .ok (bytesToBits block) := by
    rw [List.take_append_drop]
    exact (initialPermutation_eq_ok_iff wf (by rw [bytesToBits_length, hb]) hvl).1 hv
  exact cryptBlock_of_steps hel hinitial hmerged hrounds hfinal (bitsToBytes_bytesToBits block)

theorem RoundKeysShaped.reverse {cfg : Cfg} {rk : List Bits} (h : RoundKeysShaped cfg rk) :
    RoundKeysShaped cfg rk.reverse := by
  simpa [RoundKeysShaped] using h

/-- Settles O49: one way as it stands, the other way by the reversed key list, under which the two actions exchange. -/
theorem blockRoundTrip : Obligations.BlockRoundTrip := by
  intro cfg block rk wf hb hrk
  obtain ⟨enc, henc, _, hback⟩ := cryptBlock_decrypt_encrypt wf hrk hb
  obtain ⟨dec, hdec, _, hforth⟩ := cryptBlock_decrypt_encrypt wf hrk.reverse hb
  rw [← decryptReversesKeyOrder cfg block rk hrk.1] at hdec
  rw [decryptReversesKeyOrder cfg dec rk.reverse hrk.reverse.1, List.reverse_reverse] at hforth
  exact ⟨enc, dec, henc, hback, hdec, hforth⟩

/-! ### ENCB and DECB -/

/-- The output of a data command, whatever it leaves in the working registers (20_memory.md R54). -/
theorem outputIs_storeOutput (s : State) {o : List Byte} (ho : o.length < 2 ^ 32) :
    OutputIs (s.storeOutput o).complete o :=
  ⟨(BitVec.toNat_ofNat ..).trans (Nat.mod_eq_of_lt ho), storeOutput_reads s o, storeOutput_written s o, rfl⟩

theorem dataFrame_storeOutput (s : State) (o : List Byte) : DataFrame s (s.storeOutput o).complete where
  surroundings := ⟨rfl, rfl, rfl⟩
  cipher := ⟨rfl, rfl, rfl⟩
  keymem := sameBuffer_of_mem_eq rfl rfl
  inmem := sameBuffer_of_mem_eq rfl rfl
  halt := rfl
  busy := rfl
  esticky := rfl
  klen := rfl
  mlen := rfl
  c := rfl
  d := rfl

/-- A Block command does what R144 and R145 say of both: the operand's two checks in their order, then a `crypt_block` that
cannot fail. -/
theorem blockCommandEffect {i : Instr} {tag : Action}
    (hexec : ∀ s, exec i s = unlessHalted s (finish s (blockCommand tag s))) : BlockCommandEffect i tag := by
  intro s wf hrk hh
  rw [hexec, unlessHalted_of_running hh, blockCommand]
  rcases blockOperand_cases s with ⟨hv, hop⟩ | ⟨hv, hlen, hop⟩ | ⟨hv, hlen, hop⟩
  · refine ⟨fun _ => ?_, by simp [hv], by simp [hv]⟩
    rw [hop, except_error_bind, finish_error, raise_of_reported rfl]
    rfl
  · have hm : s.mlen ≠ 8#32 := fun h => hlen (by rw [h]; rfl)
    refine ⟨by simp [hv], fun _ => ?_, by simp [hm]⟩
    rw [hop, except_error_bind, finish_error, raise_of_reported rfl]
    rfl
  · have hm : s.mlen = 8#32 := BitVec.eq_of_toNat_eq hlen
    refine ⟨by simp [hv], by simp [hm], fun _ => ?_⟩
    obtain ⟨o, ho, hol⟩ := cryptBlock_ok wf hrk tag (memRead_length s .inmem 0 8)
    exact ⟨o, (s.storeOutput o).unspecifyBlock.complete, ho, hol, by rw [hop, except_ok_bind, ho, except_ok_bind, finish_ok],
      outputIs_storeOutput s (by omega), rfl, rfl, { dataFrame_storeOutput s o with }⟩

/-- Settles O23: ENCB is the Block command of `Encrypt`. -/
theorem encbEffect : Obligations.EncbEffect := ⟨rfl, blockCommandEffect fun _ => rfl⟩

/-- Settles O24: DECB is the Block command of `Decrypt`. -/
theorem decbEffect : Obligations.DecbEffect := ⟨rfl, blockCommandEffect fun _ => rfl⟩

end Sys2Proof.Machine
end

section
/-!
PROOFS. The message codec (44_message_codec.md): what `pad` and `strip` do to a sequence and to each other, that the Blocks
of a message are processed each on its own, and the laws of R165 and R166 that follow.
-/

namespace Sys2Proof.Machine

/-! ### pad -/

/-- Settles O50: the count is `8 - (len(M) mod 8)`, which is what the length lacks to the next multiple of 8. -/
theorem padAlwaysAdds : Obligations.PadAlwaysAdds := by
  intro m
  refine ⟨8 - m.length % 8, ?_, ?_, ?_, rfl⟩ <;> omega

/-- There is one count in 1 .. 8 that completes the last Block, so `pad` adds it (44_message_codec.md R156). -/
theorem pad_eq_append {m : List Byte} {v : Nat} (h1 : 1 ≤ v) (h8 : v ≤ 8) (hlen : (m.length + v) % 8 = 0) :
    pad m = m ++ List.replicate v (BitVec.ofNat 8 v) := by
  obtain ⟨p, hp1, hp8, hplen, hpad⟩ := padAlwaysAdds m
  obtain rfl : p = v := by omega
  exact hpad

theorem pad_append {m : List Byte} (h8 : m.length % 8 = 0) (more : List Byte) : pad (m ++ more) = m ++ pad more := by
  have hmod : (m ++ more).length % 8 = more.length % 8 := by rw [List.length_append]; omega
  simp only [pad, Config.blockBytes, hmod, List.append_assoc]

/-! ### strip -/

/-- `strip` looks at the last byte only (44_message_codec.md R163). -/
theorem strip_append_singleton (x : List Byte) (v : Byte) :
    strip (x ++ [v]) = if 1 ≤ v.toNat ∧ v.toNat ≤ 8 then ((x ++ [v]).take ((x ++ [v]).length - v.toNat), false)
      else (x ++ [v], true) := by
  simp only [strip, List.getLast?_concat, Config.blockBytes]

theorem strip_append_replicate (m : List Byte) {v : Nat} (h1 : 1 ≤ v) (h8 : v ≤ 8) :
    strip (m ++ List.replicate v (BitVec.ofNat 8 v)) = (m, false) := by
  obtain ⟨n, rfl⟩ : ∃ n, v = n + 1 := ⟨v - 1, by omega⟩
  have hv : (BitVec.ofNat 8 (n + 1)).toNat = n + 1 := by rw [BitVec.toNat_ofNat]; omega
  rw [List.replicate_succ', ← List.append_assoc, strip_append_singleton, hv, if_pos ⟨h1, h8⟩, List.append_assoc,
    ← List.replicate_succ', List.take_left' (by simp)]

theorem strip_pad (m : List Byte) : strip (pad m) = (m, false) := by
  obtain ⟨p, h1, h8, -, hpad⟩ := padAlwaysAdds m
  rw [hpad, strip_append_replicate m h1 h8]

/-- Settles O51: the last byte decides, and the last byte of a padded message counts its padding. -/
theorem stripRemovesPadding : Obligations.StripRemovesPadding := by
  refine ⟨rfl, fun x v hv => ?_, fun x v hv => ?_, strip_pad⟩
  · rw [strip_append_singleton, if_pos hv]
  · rw [strip_append_singleton, if_neg (by omega)]

/-- Padding again what `strip` leaves of whole Blocks gives them back if and only if they end in a well-formed padding. -/
theorem pad_strip_eq_iff {pp : List Byte} (h8 : pp.length % 8 = 0) :
    pad (strip pp).1 = pp ↔
      ∃ (m : List Byte) (v : Nat), 1 ≤ v ∧ v ≤ 8 ∧ pp = m ++ List.replicate v (BitVec.ofNat 8 v) := by
  constructor
  · intro h
    obtain ⟨p, hp1, hp8, -, hpad⟩ := padAlwaysAdds (strip pp).1
    exact ⟨_, p, hp1, hp8, h.symm.trans hpad⟩
  · rintro ⟨m, v, hv1, hv8, rfl⟩
    rw [strip_append_replicate m hv1 hv8]
    exact pad_eq_append hv1 hv8 (by simpa using h8)

/-! ### Blocks -/

theorem cryptBlocks_succ_eq_ok {cfg : Cfg} {rk : List Bits} {tag : Action} {n : Nat} {x y : List Byte} :
    cryptBlocks cfg rk tag (n + 1) x = .ok y ↔ ∃ b rest, cryptBlock cfg (x.take 8) rk tag = .ok b ∧
      cryptBlocks cfg rk tag n (x.drop 8) = .ok rest ∧ b ++ rest = y := by
  simp only [cryptBlocks, except_bind_eq_ok, Except.ok.injEq, exists_and_left]

/-- Blocks in front of others are processed as they are alone. -/
theorem cryptBlocks_append {cfg : Cfg} {rk : List Bits} {tag : Action} {n : Nat} {x' y' : List Byte}
    (h' : cryptBlocks cfg rk tag n x' = .ok y') : ∀ {k : Nat} {x y : List Byte}, x.length = 8 * k →
      cryptBlocks cfg rk tag k x = .ok y → cryptBlocks cfg rk tag (k + n) (x ++ x') = .ok (y ++ y')
  | 0, x, y, hx, h => by
    obtain rfl : x = [] := List.eq_nil_of_length_eq_zero hx
    obtain rfl : [] = y := Except.ok.inj h
    simpa using h'
  | k + 1, x, y, hx, h => by
    obtain ⟨b, rest, hb, hrest, rfl⟩ := cryptBlocks_succ_eq_ok.1 h
    have hlen : 8 ≤ x.length := by omega
    rw [Nat.add_right_comm, cryptBlocks_succ_eq_ok, List.take_append_of_le_length hlen,
      List.drop_append_of_le_length hlen]
    exact ⟨b, rest ++ y', hb, cryptBlocks_append h' (by simp; omega) hrest, (List.append_assoc ..).symm⟩

/-! ### enc_message and dec_message, made of Blocks -/

/-- Whole Blocks in front of a message are encrypted as they are alone (44_message_codec.md R166 (c)). -/
theorem encMessage_append {cfg : Cfg} {rk : List Bits} {m head more tail : List Byte} (h8 : m.length % 8 = 0)
    (hhead : cryptBlocks cfg rk .encrypt (m.length / 8) m = .ok head) (htail : encMessage cfg more rk = .ok tail) :
    encMessage cfg (m ++ more) rk = .ok (head ++ tail) := by
  have hcount : (m ++ pad more).length / 8 = m.length / 8 + (pad more).length / 8 := by rw [List.length_append]; omega
  rw [encMessage, pad_append h8, Config.blockBytes, hcount]
  exact cryptBlocks_append htail (by omega) hhead

theorem decMessage_of_length {cfg : Cfg} {rk : List Bits} {ct pp : List Byte}
    (h8 : ct.length % 8 = 0) (h : cryptBlocks cfg rk .decrypt (ct.length / 8) ct = .ok pp) :
    decMessage cfg ct rk = .ok (strip pp) := by
  simp [decMessage, h8, h]

/-! ### Blocks over a buildable configuration -/

section Blocks

variable {cfg : Cfg} {rk : List Bits} (wf : cfg.WF) (hrk : RoundKeysShaped cfg rk)
include wf hrk

/-- The first Block of the output is made from that of the input, for a Block's output is a Block. -/
theorem cryptBlocks_succ_eq_ok_iff {tag : Action} {n : Nat} {x y : List Byte} (hx : 8 ≤ x.length) :
    cryptBlocks cfg rk tag (n + 1) x = .ok y ↔
      cryptBlock cfg (x.take 8) rk tag = .ok (y.take 8) ∧ cryptBlocks cfg rk tag n (x.drop 8) = .ok (y.drop 8) := by
  rw [cryptBlocks_succ_eq_ok]
  constructor
  · rintro ⟨b, rest, hb, hrest, rfl⟩
    have hlen := cryptBlock_length wf hrk (List.length_take_of_le hx) hb
    rw [List.take_left' hlen, List.drop_left' hlen]
    exact ⟨hb, hrest⟩
  · rintro ⟨hb, hrest⟩
    exact ⟨_, _, hb, hrest, List.take_append_drop 8 y⟩

/-- Block `k` of the output is made from Block `k` of the input alone, and the Blocks are the whole output
(44_message_codec.md R158). -/
theorem cryptBlocks_eq_ok_iff {tag : Action} : ∀ {n : Nat} {x y : List Byte}, x.length = 8 * n → y.length = 8 * n →
    (cryptBlocks cfg rk tag n x = .ok y ↔
      ∀ k < n, cryptBlock cfg ((x.drop (8 * k)).take 8) rk tag = .ok ((y.drop (8 * k)).take 8))
  | 0, x, y, _, hy => by
    obtain rfl : y = [] := List.eq_nil_of_length_eq_zero hy
    simp [cryptBlocks]
  | n + 1, x, y, hx, hy => by
    have ih := cryptBlocks_eq_ok_iff (tag := tag) (n := n) (x := x.drop 8) (y := y.drop 8) (by simp; omega)
      (by simp; omega)
    rw [cryptBlocks_succ_eq_ok_iff wf hrk (by omega), ih, Nat.forall_lt_succ_left]
    simp only [Nat.mul_zero, List.drop_zero, List.drop_drop, Nat.mul_succ, Nat.add_comm 8]

/-- `crypt_block` under the two actions is one relation of Blocks and its converse (43_block_iterator.md R146). -/
theorem cryptBlock_encrypt_iff_decrypt {b o : List Byte} (hb : b.length = 8) (ho : o.length = 8) :
    cryptBlock cfg b rk .encrypt = .ok o ↔ cryptBlock cfg o rk .decrypt = .ok b := by
  constructor
  · intro h
    obtain ⟨enc, _, henc, hback, _⟩ := blockRoundTrip cfg b rk wf hb hrk
    rwa [Except.ok.inj (h.symm.trans henc)]
  · intro h
    obtain ⟨_, dec, _, _, hdec, hforth⟩ := blockRoundTrip cfg o rk wf ho hrk
    rwa [Except.ok.inj (h.symm.trans hdec)]

theorem cryptBlocks_encrypt_iff_decrypt {n : Nat} {x y : List Byte} (hx : x.length = 8 * n) (hy : y.length = 8 * n) :
    cryptBlocks cfg rk .encrypt n x = .ok y ↔ cryptBlocks cfg rk .decrypt n y = .ok x := by
  rw [cryptBlocks_eq_ok_iff wf hrk hx hy, cryptBlocks_eq_ok_iff wf hrk hy hx]
  refine forall₂_congr fun k hk => cryptBlock_encrypt_iff_decrypt wf hrk ?_ ?_ <;> simp <;> omega

/-! ### The round trip -/

/-- `enc_message` in terms of the decryption of its result: `M` encrypts to `x` if and only if the Blocks of `x` decrypt to
`pad(M)`. -/
theorem encMessage_eq_ok_iff {m x : List Byte} : encMessage cfg m rk = .ok x ↔
    x.length = (pad m).length ∧ cryptBlocks cfg rk .decrypt (x.length / 8) x = .ok (pad m) := by
  have hpad : (pad m).length = 8 * ((pad m).length / 8) := by have := pad_blocks m; omega
  have hlen : encMessage cfg m rk = .ok x → x.length = (pad m).length := fun h => by
    rw [encMessage_length wf hrk h, pad_length]
  rw [← and_iff_right_of_imp hlen]
  refine and_congr_right fun hx => ?_
  rw [hx]
  exact cryptBlocks_encrypt_iff_decrypt wf hrk hpad (hx.trans hpad)

theorem encMessage_length_mod {m ct : List Byte} (h : encMessage cfg m rk = .ok ct) : ct.length % 8 = 0 := by
  have := encMessage_length wf hrk h
  omega

/-- The Blocks of the ciphertext decrypt to the padded message, of which `strip` leaves the message
(44_message_codec.md R165). -/
theorem decMessage_of_encMessage {m ct : List Byte} (h : encMessage cfg m rk = .ok ct) :
    decMessage cfg ct rk = .ok (m, false) := by
  obtain ⟨-, hdec⟩ := (encMessage_eq_ok_iff wf hrk).1 h
  rw [decMessage_of_length (encMessage_length_mod wf hrk h) hdec, strip_pad]

end Blocks

/-- Settles O54: the Blocks cannot fail, and the output is Block for Block that of the input. -/
theorem blocksAreIndependent : Obligations.BlocksAreIndependent := by
  intro cfg rk tag n x wf hrk hx
  obtain ⟨y, hy, hyl⟩ := cryptBlocks_ok wf hrk tag n x hx
  exact ⟨y, hy, hyl, (cryptBlocks_eq_ok_iff wf hrk hx hyl).1 hy⟩

/-- Settles O52: `enc_message` processes the Blocks of the padded message, each on its own. -/
theorem encMessageIsBlockwise : Obligations.EncMessageIsBlockwise := by
  intro cfg m rk wf hrk
  obtain ⟨ct, hct, hlen⟩ := encMessage_ok wf hrk m
  have hpad : ct.length = (pad m).length := by rw [hlen, pad_length]
  have hblocks : ct.length = 8 * (ct.length / 8) := by have := pad_blocks m; omega
  refine ⟨ct, hct, hlen, hpad, (cryptBlocks_eq_ok_iff wf hrk (hpad.symm.trans hblocks) hblocks).1 ?_⟩
  rw [hpad]
  exact hct

/-- Settles O53: a length of whole Blocks is decrypted Block by Block, and `strip` comes last. -/
theorem decMessageIsBlockwise : Obligations.DecMessageIsBlockwise := by
  intro cfg ct rk wf hrk
  refine ⟨fun h => if_pos h, fun h8 => ?_⟩
  obtain ⟨pp, hpp, hlen, hblocks⟩ := blocksAreIndependent cfg rk .decrypt (ct.length / 8) ct wf hrk (by omega)
  exact ⟨pp, by omega, decMessage_of_length h8 hpp, hblocks⟩

/-- Settles O55: both messages begin with the same whole Blocks, and padding only follows them. -/
theorem alignedPrefixKeepsCiphertext : Obligations.AlignedPrefixKeepsCiphertext := by
  intro cfg rk m more wf hrk h8
  obtain ⟨head, hhead, hlen⟩ := cryptBlocks_ok wf hrk .encrypt (m.length / 8) m (by omega)
  obtain ⟨tail, htail, -⟩ := encMessage_ok wf hrk []
  obtain ⟨tail', htail', -⟩ := encMessage_ok wf hrk more
  have hm := encMessage_append h8 hhead htail
  rw [List.append_nil] at hm
  have hheadLength : head.length = m.length := by omega
  refine ⟨_, _, hm, encMessage_append h8 hhead htail', ?_⟩
  rw [List.take_left' hheadLength, List.take_left' hheadLength]

/-- Settles O56: `enc_message` cannot fail, and `dec_message` undoes it. -/
theorem messageRoundTrip : Obligations.MessageRoundTrip := by
  intro cfg m rk wf hrk
  obtain ⟨ct, hct, -⟩ := encMessage_ok wf hrk m
  exact ⟨ct, hct, decMessage_of_encMessage wf hrk hct⟩

/-- Settles O57: the stripped decryption encrypts to `x` if and only if padding it again gives the decryption back. -/
theorem reencryptionNeedsPadding : Obligations.ReencryptionNeedsPadding := by
  intro cfg x rk wf hrk h8
  obtain ⟨pp, hpp, hlen⟩ := cryptBlocks_ok wf hrk .decrypt (x.length / 8) x (by omega)
  have hlen' : x.length = pp.length := by omega
  refine ⟨pp, hpp, decMessage_of_length h8 hpp, ?_⟩
  rw [← pad_strip_eq_iff (hlen' ▸ h8), encMessage_eq_ok_iff wf hrk, hpp, Except.ok.injEq]
  exact ⟨fun ⟨_, h⟩ => h.symm, fun h => ⟨by rw [h, hlen'], h.symm⟩⟩

end Sys2Proof.Machine
end

section
/-!
PROOFS. The message commands ENCM and DECM (44_message_codec.md R160, R164), and the round trip of a message through them
(R165).
-/

namespace Sys2Proof.Machine

/-! ### ENCM and DECM -/

/-- A check that fails with a reported fault ends the command, which changes nothing else (60_exceptions.md R191, R193). -/
theorem finish_error_bind_of_reported {α : Type} {f : FaultCode} (hf : f.isPanic = false) (s : State)
    (rest : α → Except FaultCode State) :
    finish s (.error f >>= rest) =
      .next { s with err := f.errValue, esticky := s.esticky ||| f.stickyBit, busy := false } := by
  rw [except_error_bind, finish_error, raise_of_reported hf]

/-- Settles O25: the operand's two checks in their order, then an `enc_message` that cannot fail. -/
theorem encmEffect : Obligations.EncmEffect := by
  refine ⟨rfl, fun s wf hrk hh => ?_⟩
  have hexec : exec .encm s = finish s (encryptMessage s) := unlessHalted_of_running hh _
  rw [hexec, encryptMessage]
  rcases messageOperand_cases s with ⟨hv, hop⟩ | ⟨hv, hbig, hop⟩ | ⟨hv, hle, hop⟩ <;> rw [hop]
  · exact ⟨fun _ => finish_error_bind_of_reported rfl s _, by simp [hv], by simp [hv]⟩
  · exact ⟨by simp [hv], fun _ => finish_error_bind_of_reported rfl s _, by omega⟩
  · refine ⟨by simp [hv], by omega, fun _ => ?_⟩
    obtain ⟨ct, hct, hlen⟩ := encMessage_ok wf hrk (s.memRead .inmem 0 s.mlen.toNat)
    rw [memRead_length] at hlen
    have hsize : s.cfg.msgCap + 8 < 2 ^ 32 := outmem_size_lt wf
    exact ⟨ct, (s.storeOutput ct).unspecifyMessage.complete, hct, hlen,
      by rw [except_ok_bind, hct, except_ok_bind, finish_ok], outputIs_storeOutput s (by omega), rfl,
      { dataFrame_storeOutput s ct with }⟩

/-- Settles O26: the operand's three checks in their order, then a `dec_message` that cannot fail on whole Blocks. -/
theorem decmEffect : Obligations.DecmEffect := by
  refine ⟨rfl, fun s wf hrk hh => ?_⟩
  have hexec : exec .decm s = finish s (decryptMessage s) := unlessHalted_of_running hh _
  rw [hexec, decryptMessage]
  rcases ciphertextOperand_cases s with ⟨hv, hop⟩ | ⟨hv, hbig, hop⟩ | ⟨hv, hle, hmod, hop⟩ | ⟨hv, hle, hmod, hop⟩ <;>
    rw [hop]
  · exact ⟨fun _ => finish_error_bind_of_reported rfl s _, by simp [hv], by simp [hv], by simp [hv]⟩
  · exact ⟨by simp [hv], fun _ => finish_error_bind_of_reported rfl s _, by omega, by omega⟩
  · exact ⟨by simp [hv], by omega, fun _ => finish_error_bind_of_reported rfl s _, by omega⟩
  · refine ⟨by simp [hv], by omega, by omega, fun _ => ?_⟩
    obtain ⟨pt, bad, hpt, hlen⟩ := decMessage_ok wf hrk (ct := s.memRead .inmem 0 s.mlen.toNat)
      (by rwa [memRead_length])
    rw [memRead_length] at hlen
    have hsize : s.cfg.msgCap + 8 < 2 ^ 32 := outmem_size_lt wf
    exact ⟨pt, bad, State.complete { (s.storeOutput pt).unspecifyMessage with badpad := bad }, hpt,
      by rw [except_ok_bind, hpt, except_ok_bind, finish_ok], outputIs_storeOutput s (by omega), rfl,
      { dataFrame_storeOutput s pt with }⟩

/-! ### The round trip -/

/-- DECM of an input that is the ciphertext of `m` under the instance's round keys puts out `m`. -/
theorem exec_decm_of_encMessage {u : State} {m ct : List Byte} (wf : u.cfg.WF) (hrk : RoundKeysShaped u.cfg u.rk)
    (hh : u.halt = false) (hv : u.keyValid = true) (henc : encMessage u.cfg m u.rk = .ok ct)
    (hmlen : u.mlen.toNat = ct.length) (hfits : ct.length ≤ u.cfg.msgCap) (hinput : u.memRead .inmem 0 ct.length = ct) :
    ∃ v, exec .decm u = .next v ∧ OutputIs v m ∧ v.badpad = false := by
  obtain ⟨-, hdecm⟩ := decmEffect
  obtain ⟨-, -, -, hsucceeds⟩ := hdecm u wf hrk hh
  have h8 := encMessage_length_mod wf hrk henc
  rw [hmlen, hinput, decMessage_of_encMessage wf hrk henc] at hsucceeds
  obtain ⟨pt, bad, v, hpt, hexec, hout, hbad, -⟩ := hsucceeds ⟨hv, hfits, h8⟩
  obtain ⟨rfl, rfl⟩ : m = pt ∧ false = bad := by simpa using hpt
  exact ⟨v, hexec, hout, hbad⟩

/-- Settles O58: the ciphertext ENCM puts out fits INMEM, and the copy is decrypted under the same round keys. -/
theorem commandRoundTrip : Obligations.CommandRoundTrip := by
  intro s t u wf hrk hh hv hroom ht hcfg hkeys hvalid hhalt hmlen hcopied
  obtain ⟨-, hencm⟩ := encmEffect
  obtain ⟨-, -, hsucceeds⟩ := hencm s wf hrk hh
  obtain ⟨ct, t', hct, hlen, ht', ⟨holen, hout, -, -⟩, -, hframe⟩ := hsucceeds ⟨hv, by omega⟩
  obtain rfl : t' = t := next_inj.1 (ht'.symm.trans ht)
  obtain ⟨hcfg', -, -⟩ := hframe.surroundings
  obtain ⟨-, hkeys', hvalid'⟩ := hframe.cipher
  rw [← hcfg', ← hcfg] at wf hrk hroom hct
  rw [← hkeys', ← hkeys] at hrk hct
  have hinput : u.memRead .inmem 0 ct.length = ct := (memRead_congr (holen ▸ hcopied)).trans hout
  obtain ⟨v, hexec, hvout, hbad⟩ := exec_decm_of_encMessage wf hrk (hhalt.trans (hframe.halt.trans hh))
    (hvalid.trans (hvalid'.trans hv)) hct (hmlen ▸ holen) (by omega) hinput
  exact ⟨v, hexec, hvout, BitVec.eq_of_toNat_eq (hvout.1.trans (memRead_length ..)), hbad⟩

end Sys2Proof.Machine
end

section
/-!
PROOFS. The host actions while `BUSY = 0`, register and buffer, written and read (45_control_and_host.md R177 to R180), and
the commands of unit 0, NOP and RST (R175, R176).
-/

namespace Sys2Proof.Machine

/-! ### Buffer writes -/

/-- The size of a buffer the host can write is its capacity (20_memory.md R50). -/
theorem bufferSize_of_ne_outmem (c : Cfg) {sp : Space} (hsp : sp ≠ .outmem) :
    bufferSize c sp = if sp = .keymem then c.keyCap else c.msgCap := by
  cases sp with
  | keymem => rfl
  | inmem => rfl
  | outmem => contradiction

theorem hostWriteMem_of_lt {sp : Space} {a : Nat} {s : State} (hsp : sp ≠ .outmem) (ha : a < bufferSize s.cfg sp)
    (b : Byte) : hostWriteMem sp a b s = s.setByte sp a b := by
  rcases hostWriteMem_cases sp a b s with ⟨-, -, h⟩ | ⟨hout | hle, -⟩
  · exact h
  · exact absurd hout hsp
  · exact absurd ha (Nat.not_lt.2 hle)

theorem hostWriteMem_of_ignored {sp : Space} {a : Nat} {s : State} (h : sp = .outmem ∨ bufferSize s.cfg sp ≤ a)
    (b : Byte) : hostWriteMem sp a b s = s := by
  rcases hostWriteMem_cases sp a b s with ⟨hsp, ha, -⟩ | ⟨-, hs⟩
  · exact absurd h (not_or.2 ⟨hsp, Nat.not_le.2 ha⟩)
  · exact hs

/-- Storing a byte of KEYMEM or INMEM changes nothing outside these two buffers. -/
theorem setByte_frame {sp : Space} (hsp : sp ≠ .outmem) (a : Nat) (b : Byte) (s : State) :
    { s.setByte sp a b with keymem := s.keymem, inmem := s.inmem } = s := by
  cases sp with
  | keymem => rfl
  | inmem => rfl
  | outmem => contradiction

/-- Storing a byte leaves every other byte of every buffer as it was. -/
theorem setByte_other {sp sp' : Space} {a x : Nat} (h : (sp', x) ≠ (sp, a)) (b : Byte) (s : State) :
    (s.setByte sp a b).byteAt sp' x = s.byteAt sp' x ∧ (s.setByte sp a b).written sp' x = s.written sp' x := by
  have hne : ¬(sp' = sp ∧ x = a) := fun ⟨hsp, hx⟩ => h (by rw [hsp, hx])
  rw [byteAt_setByte, written_setByte, if_neg hne, if_neg hne]
  exact ⟨rfl, rfl⟩

/-- Settles O12: a write inside a buffer that the host can write stores the byte, and any other is ignored. -/
theorem bufferWritesStoreOneByte : Obligations.BufferWritesStoreOneByte := by
  intro s sp a b rest h hb
  have hstep : step s = .next (hostWriteMem sp a b { s with host := rest }) := step_idle h hb
  refine ⟨fun ⟨hsp, ha⟩ => ?stored, fun hignored => ?ignored⟩
  case stored =>
    rw [← bufferSize_of_ne_outmem s.cfg hsp] at ha
    rw [hstep, hostWriteMem_of_lt (s := { s with host := rest }) hsp ha]
    exact ⟨_, rfl, by rw [byteAt_setByte, if_pos ⟨rfl, rfl⟩], by rw [written_setByte, if_pos ⟨rfl, rfl⟩],
      fun _ _ hne => setByte_other hne b { s with host := rest }, setByte_frame hsp a b { s with host := rest }⟩
  case ignored =>
    have hsize : sp = .outmem ∨ bufferSize s.cfg sp ≤ a := by
      by_cases hsp : sp = .outmem
      · exact .inl hsp
      · rw [bufferSize_of_ne_outmem s.cfg hsp]
        exact hignored
    rw [hstep, hostWriteMem_of_ignored (s := { s with host := rest }) hsize]

/-! ### Register writes, and reads -/

/-- Settles O10: a register write other than that of CMD, case by case on the register's number. -/
theorem registerWritesStoreLengths : Obligations.RegisterWritesStoreLengths := by
  intro s n v rest h hb hn
  have hstep : step s = hostWriteReg n v { s with host := rest } := step_idle h hb
  rw [hstep, hostWriteReg_cases, if_neg hn]
  split
  · rfl
  · split <;> rfl

/-- Settles O11: the reply is the register's value, and giving it changes the list of replies alone. -/
theorem registerReadsReply : Obligations.RegisterReadsReply := by
  intro s n rest h hb
  have hstep : step s = .next (State.reply { s with host := rest } (.reg (State.regValue { s with host := rest } n))) :=
    step_idle h hb
  rw [hstep, regValue_eq]
  rfl

/-- INMEM and OUTMEM read their bytes within their sizes, everything else reads 0 (45_control_and_host.md R180). -/
theorem memValue_eq (s : State) (sp : Space) (a : Nat) :
    s.memValue sp a = if (sp = .inmem ∧ a < s.cfg.msgCap) ∨ (sp = .outmem ∧ a < s.cfg.msgCap + 8)
      then s.byteAt sp a else 0#8 := by
  cases sp with
  | keymem => exact (if_neg (by simp)).symm
  | inmem => exact if_congr (by simp [bufferSize]) rfl rfl
  | outmem => exact if_congr (by simp [bufferSize]) rfl rfl

/-- Settles O13: the reply is what the buffer byte reads as, and giving it changes the list of replies alone. -/
theorem bufferReadsReply : Obligations.BufferReadsReply := by
  intro s sp a rest h hb
  have hstep : step s =
      .next (State.reply { s with host := rest } (.byte (State.memValue { s with host := rest } sp a))) := step_idle h hb
  rw [hstep, memValue_eq]
  rfl

/-! ### NOP and RST -/

/-- Settles O19: NOP's meaning is the state itself, without a test of `HALT`. -/
theorem nopEffect : Obligations.NopEffect := ⟨rfl, fun _ => rfl⟩

/-- RST and HostReset leave what any reset leaves (10_state.md R33, 70_reset_and_hazards.md R215). -/
theorem resetLeaves_resetAll (s : State) : ResetLeaves s s.resetAll :=
  ⟨⟨rfl, rfl, rfl⟩, statusWord_resetAll s, rfl, rfl, rfl, fun sp _ => by cases sp <;> rfl⟩

/-- Settles O20: RST is the reset of every piece of state, without a test of `HALT`. -/
theorem rstEffect : Obligations.RstEffect :=
  ⟨rfl, fun s => ⟨s.resetAll, rfl, resetLeaves_resetAll s, State.resetAll_key s, State.resetAll_rk s⟩⟩

end Sys2Proof.Machine
end

section
/-!
PROOFS. Faults (60_exceptions.md): what a fault writes (R193), that the commands of a buildable FCC raise reported faults
only (R191, R194), and that `ESTICKY` only grows between resets (R196). Last, what a host action replies, and that the
reply does not depend on the key (R200, 20_memory.md R51).
-/

namespace Sys2Proof.Machine

/-! ### What a fault writes -/

/-- The panics are the faults of codes 2, 4 and 5 (60_exceptions.md R190, R194). -/
theorem isPanic_eq_decide_code (f : FaultCode) : f.isPanic = decide (f.code = 2 ∨ f.code = 4 ∨ f.code = 5) := by
  cases f <;> rfl

theorem code_bounds (f : FaultCode) : 1 ≤ f.code ∧ f.code ≤ 7 := by
  cases f <;> decide

theorem errValue_of_reported {f : FaultCode} (hf : f.isPanic = false) : f.errValue ∉ [2#4, 4#4, 5#4] := by
  cases f with
  | invalidWidth | invalidAction | indexOutOfRange => cases hf
  | invalidKey | invalidBlockLength | noKey | capacity => decide

/-- What a fault makes of a running FCC, by its code (60_exceptions.md R193). -/
theorem raise_of_running {s : State} (hh : s.halt = false) (f : FaultCode) :
    s.raise f = { s with
      err := BitVec.ofNat 4 f.code
      esticky := s.esticky ||| BitVec.ofNat 8 (2 ^ f.code)
      halt := decide (f.code = 2 ∨ f.code = 4 ∨ f.code = 5)
      busy := false } := by
  rw [State.raise, hh, Bool.false_or, isPanic_eq_decide_code]
  rfl

/-- Settles O28: a command ends with an error only by raising a fault, which writes what R193 says on top of the state
before the command or, for KLOAD, of that state with the instance discarded. -/
theorem faultsArePrecise : Obligations.FaultsArePrecise := by
  intro i s t hh hi h herr
  rcases exec_cases h with ⟨_, hn | hhalted, _⟩ | ⟨_, rfl⟩ | ⟨_, _, _, f, _, rfl⟩ | ⟨_, _, _, u, _, rfl⟩
  · exact absurd hn hi
  · simp [hh] at hhalted
  · exact absurd (State.resetAll_err s) herr
  · obtain ⟨_, hbase, _⟩ := faultBase_frame i s
    obtain ⟨hlow, hhigh⟩ := code_bounds f
    refine ⟨f.code, hlow, hhigh, ?_⟩
    rw [raise_of_running (hbase.trans hh), faultBase]
    by_cases hload : i = .kload
    · simp only [if_pos hload]
      rfl
    · simp only [if_neg hload]
  · exact absurd (State.complete_err u) herr

/-! ### No command panics -/

theorem isPanic_of_commandBody_error {i : Instr} {s : State} {f : FaultCode} (wf : s.cfg.WF)
    (hrk : RoundKeysShaped s.cfg s.rk) (h : commandBody i s = .error f) : f.isPanic = false := by
  rcases commandBody_error wf (fun _ => hrk) h with rfl | rfl | rfl | rfl <;> rfl

/-- Settles O27: NOP leaves `ERR` as it was, a reset and a command that succeeds write 0 to it, and a command that fails
raises a reported fault. -/
theorem commandsNeverPanic : Obligations.CommandsNeverPanic := by
  intro i s t wf hrk hh herr h
  rcases exec_cases h with ⟨_, _, rfl⟩ | ⟨_, rfl⟩ | ⟨_, _, _, f, hf, rfl⟩ | ⟨hn, hr, _, u, hu, rfl⟩
  · exact ⟨hh, herr⟩
  · exact ⟨State.resetAll_halt s, by rw [State.resetAll_err]; decide⟩
  · have hreported := isPanic_of_commandBody_error wf hrk hf
    obtain ⟨_, hbase, _⟩ := faultBase_frame i s
    rw [raise_of_reported hreported]
    exact ⟨hbase.trans hh, errValue_of_reported hreported⟩
  · obtain ⟨_, hhalt, _⟩ := commandBody_frame hn hr hu
    exact ⟨hhalt.trans hh, by rw [State.complete_err]; decide⟩

/-! ### ESTICKY only grows -/

/-- Every bit of `ESTICKY` that is 1 in `s` is 1 in `t`. -/
def StickyKept (s t : State) : Prop := ∀ k, s.esticky.getLsbD k = true → t.esticky.getLsbD k = true

theorem stickyKept_of_eq {s t : State} (h : t.esticky = s.esticky) : StickyKept s t := fun _ hk => h ▸ hk

theorem stickyKept_raise (s : State) (f : FaultCode) : StickyKept s (s.raise f) := fun k hk => by
  rw [State.raise_esticky, BitVec.getLsbD_or, hk, Bool.true_or]

theorem exec_stickyKept {i : Instr} {s t : State} (hi : i ≠ .rst) (h : exec i s = .next t) : StickyKept s t := by
  rcases exec_cases h with ⟨_, _, rfl⟩ | ⟨hr, _⟩ | ⟨_, _, _, f, _, rfl⟩ | ⟨hn, hr, _, u, hu, rfl⟩
  · exact stickyKept_of_eq rfl
  · exact absurd hr hi
  · obtain ⟨_, _, hbase, _⟩ := faultBase_frame i s
    exact fun k hk => stickyKept_raise (faultBase i s) f k (hbase ▸ hk)
  · obtain ⟨_, _, hsticky, _⟩ := commandBody_frame hn hr hu
    exact stickyKept_of_eq hsticky

theorem writeCmd_stickyKept {w : Word} {s t : State} (hw : w ≠ encode .rst) (h : writeCmd w s = .next t) :
    StickyKept s t := by
  rcases writeCmd_cases h with ⟨i, u, hd, hu, rfl⟩ | ⟨_, _, rfl⟩
  · have hi : i ≠ .rst := fun hi => hw (hi ▸ eq_encode_of_decode hd)
    exact (exec_stickyKept hi hu :)
  · split
    · exact stickyKept_of_eq rfl
    · exact stickyKept_raise s.beginCommand .invalidAction

theorem hostWriteMem_esticky (sp : Space) (a : Nat) (b : Byte) (s : State) :
    (hostWriteMem sp a b s).esticky = s.esticky := by
  rcases hostWriteMem_cases sp a b s with ⟨_, _, h⟩ | ⟨_, h⟩ <;> simp [h]

theorem actIdle_stickyKept {a : HostAction} {s t : State} (hreset : a ≠ .reset) (hrst : a ≠ .writeReg 0 (encode .rst))
    (h : actIdle a s = .next t) : StickyKept s t := by
  rcases actIdle_cases h with ⟨w, rfl, hw⟩ | ⟨n, v, _, _, rfl | rfl | rfl⟩ | ⟨n, _, rfl⟩ | ⟨sp, o, b, _, rfl⟩ |
    ⟨sp, o, _, rfl⟩ | ⟨ha, _⟩
  case inl => exact writeCmd_stickyKept (fun hw' => hrst (hw' ▸ rfl)) hw
  case inr.inr.inr.inl => exact stickyKept_of_eq (hostWriteMem_esticky sp o b s)
  case inr.inr.inr.inr.inr => exact absurd ha hreset
  all_goals exact stickyKept_of_eq rfl

theorem actBusy_stickyKept {a : HostAction} {s t : State} (hreset : a ≠ .reset) (h : actBusy a s = .next t) :
    StickyKept s t := by
  rcases actBusy_cases h with rfl | ⟨_, rfl⟩ | ⟨_, rfl⟩ | ⟨ha, _⟩
  case inr.inr.inr => exact absurd ha hreset
  all_goals exact stickyKept_of_eq rfl

/-- Settles O31: the only write of `ESTICKY` besides a reset's is that of a fault, which sets a bit. -/
theorem stickyBitsStay : Obligations.StickyBitsStay := by
  intro s t a rest k ha hreset hrst h hk
  rw [step_cons ha, act] at h
  split at h
  · exact actBusy_stickyKept hreset h k hk
  · exact actIdle_stickyKept hreset hrst h k hk

/-! ### Replies -/

/-- What a host action replies (45_control_and_host.md R178, R180; 70_reset_and_hazards.md R221 while `BUSY = 1`). -/
def hostReply? (a : HostAction) (s : State) : Option Reply :=
  match a with
  | .readReg n => some (.reg (if s.busy = true ∧ n ≠ 1 then Config.freeRegReply s.draws else s.regValue n))
  | .readMem sp o => some (.byte (if s.busy = true then Config.freeByteReply s.draws else s.memValue sp o))
  | _ => none

theorem hostWriteMem_replies (sp : Space) (a : Nat) (b : Byte) (s : State) :
    (hostWriteMem sp a b s).replies = s.replies := by
  rcases hostWriteMem_cases sp a b s with ⟨_, _, h⟩ | ⟨_, h⟩ <;> simp [h]

theorem actIdle_replies {a : HostAction} {s t : State} (hb : s.busy = false) (h : actIdle a s = .next t) :
    t.replies = (hostReply? a s).toList ++ s.replies := by
  rcases actIdle_cases h with ⟨w, rfl, hw⟩ | ⟨n, v, rfl, _, rfl | rfl | rfl⟩ | ⟨n, rfl, rfl⟩ | ⟨sp, o, b, rfl, rfl⟩ |
    ⟨sp, o, rfl, rfl⟩ | ⟨rfl, rfl⟩
  case inl =>
    obtain ⟨_, _, hreplies⟩ := writeCmd_surroundings hw
    exact hreplies
  case inr.inr.inr.inl => exact hostWriteMem_replies sp o b s
  case inr.inr.inl | inr.inr.inr.inr.inl => simp [hostReply?, hb]
  all_goals rfl

theorem actBusy_replies {a : HostAction} {s t : State} (hb : s.busy = true) (h : actBusy a s = .next t) :
    t.replies = (hostReply? a s).toList ++ s.replies := by
  cases a with
  | readReg n =>
    by_cases hn : n = 1
    · subst hn
      obtain rfl := next_inj.1 h
      simp [hostReply?, State.regValue]
    · rw [actBusy, if_neg hn, next_inj] at h
      subst h
      simp [hostReply?, hb, hn]
  | readMem sp o =>
    obtain rfl := next_inj.1 h
    simp [hostReply?, hb]
  | writeReg n v | writeMem sp o b | reset =>
    obtain rfl := next_inj.1 h
    rfl

/-- A step adds to the replies what its host action replies; a command replies nothing. -/
theorem step_replies {s t : State} {a : HostAction} {rest : List HostAction} (ha : s.host = a :: rest)
    (h : step s = .next t) : t.replies = (hostReply? a s).toList ++ s.replies := by
  cases hb : s.busy with
  | true => exact actBusy_replies (s := { s with host := rest }) hb (step_busy ha hb ▸ h)
  | false => exact actIdle_replies (s := { s with host := rest }) hb (step_idle ha hb ▸ h)

/-! ### The key stays inside -/

/-- The state with `KEY`, `RK`, `KEYMEM` and the working registers blanked out: all that a reply can depend on. -/
def State.withoutSecrets (s : State) : State :=
  { s with key := [], rk := [], keymem := [], l := [], r := [], c := [], d := [], rc := 0, bi := 0 }

/-- No register and no buffer byte the host can read shows what is blanked out (20_memory.md R51). -/
theorem hostReply?_withoutSecrets (a : HostAction) (s : State) : hostReply? a s.withoutSecrets = hostReply? a s := by
  cases a with
  | readReg n => rfl
  | readMem sp o => cases sp <;> rfl
  | writeReg n v | writeMem sp o b | reset => rfl

/-- Settles O16: the replies after a step are those before it and the action's own, which is the same from two states that
are equal without their secrets. -/
theorem hostActionsRevealNoKey : Obligations.HostActionsRevealNoKey := by
  intro s t s' t' a rest ha _ ht hs' ht'
  have hhost : t.host = a :: rest := by rw [ht]; exact ha
  have hreplies : t.replies = s.replies := by rw [ht]
  have hblank : t.withoutSecrets = s.withoutSecrets := by rw [ht]; rfl
  have hreply : hostReply? a t = hostReply? a s := by
    rw [← hostReply?_withoutSecrets a t, hblank, hostReply?_withoutSecrets]
  rw [step_replies ha hs', step_replies hhost ht', hreply, hreplies]

end Sys2Proof.Machine
end

section
/-!
PROOFS. Reset and hazards (70_reset_and_hazards.md): the idle step (R217), HostReset (R215), and the host actions while
`BUSY = 1` (R221).
-/

namespace Sys2Proof.Machine

/-! ### The idle step and HostReset -/

/-- Settles O7: a step performs the next host action, and there is none. -/
theorem idleHoldsState : Obligations.IdleHoldsState := fun _ h => step_nil h

/-- HostReset resets without a test of `BUSY` (70_reset_and_hazards.md R221). -/
theorem act_reset (s : State) : act .reset s = .next s.resetAll := by
  cases hb : s.busy with
  | true => exact if_pos hb
  | false => exact if_neg (Bool.eq_false_iff.1 hb)

/-- Settles O14: HostReset's next state is the reset one, whatever `BUSY` and `HALT` are. -/
theorem hostResetEffect : Obligations.HostResetEffect := by
  intro s rest h
  exact ⟨_, (step_cons h).trans (act_reset _), resetLeaves_resetAll _⟩

/-! ### Host actions while `BUSY = 1` -/

theorem actBusy_readReg_status (s : State) : actBusy (.readReg 1) s = .next (s.reply (.reg s.statusWord)) := rfl

theorem actBusy_readReg_other {n : Nat} (hn : n ≠ 1) (s : State) :
    actBusy (.readReg n) s = .next (s.reply (.reg (Config.freeRegReply s.draws))).advanceDraws := if_neg hn

theorem actBusy_readMem (sp : Space) (o : Nat) (s : State) :
    actBusy (.readMem sp o) s = .next (s.reply (.byte (Config.freeByteReply s.draws))).advanceDraws := rfl

/-- A reply that is a free value changes the list of replies and the number of draws alone. -/
theorem advanceDraws_reply_frame (x : Reply) (s : State) :
    { (s.reply x).advanceDraws with draws := s.draws } = s.reply x := rfl

/-- Settles O15: by the kind of the action, a write that is ignored, the read of STATUS, or a read that replies a free
value. -/
theorem busyIgnoresWrites : Obligations.BusyIgnoresWrites := by
  intro s a rest h hb
  rw [step_busy h hb]
  refine ⟨fun hwrite => ?ignored, fun hstatus => ?status, fun hread => ?free⟩
  case ignored => obtain ⟨n, v, rfl⟩ | ⟨sp, o, b, rfl⟩ := hwrite <;> rfl
  case status =>
    subst hstatus
    exact actBusy_readReg_status _
  case free =>
    obtain ⟨n, hn, rfl⟩ | ⟨sp, o, rfl⟩ := hread
    · exact ⟨_, _, actBusy_readReg_other hn _, advanceDraws_reply_frame _ { s with host := rest }⟩
    · exact ⟨_, _, actBusy_readMem sp o _, advanceDraws_reply_frame _ { s with host := rest }⟩

end Sys2Proof.Machine
end

section
/-!
PROOFS. The step function is total (92_eei_decisions.md D2): no step ends in a fault or a refusal of the model.
-/

namespace Sys2Proof.Machine

/-- Settles O8: an idle step answers the same state, and any other step is a host action, each of which answers. -/
theorem everyStepAnswers : Obligations.EveryStepAnswers := by
  intro s
  cases hhost : s.host with
  | nil => exact ⟨s, step_nil hhost⟩
  | cons a rest =>
    rw [step_cons hhost]
    exact act_answers a _

end Sys2Proof.Machine
end
